-- ==== Sys2Proof/Word.lean ====
section
/-! DEFINITION. The bit patterns the core works on (00_scope.md R7): a word is 32 bits, a byte is 8. -/

namespace Sys2Proof

/-- A 32-bit word: a general register, `HI`, `LO`, the pc, a memory word, an instruction (R6 `XLEN`, R7). -/
abbrev Word := BitVec 32

/-- An 8-bit byte (R7). -/
abbrev Byte := BitVec 8

/-- A 16-bit immediate field (30_encoding.md R51, R58). -/
abbrev Half := BitVec 16

/-- A general register number, a 5-bit field: 0 to 31 by its type (10_state.md R11). -/
abbrev RegNum := BitVec 5

end Sys2Proof
end

