-- ==== Sys2Proof/Machine/Flags.lean ====
section
/-! DEFINITION. The core has no flags and no condition codes (10_state.md R17): a comparison's result goes to a general
register (`slt`, `sltu`) or decides a branch. These are the comparisons. -/

namespace Sys2Proof.Machine

/-- `signed(a) < signed(b)`, of the exact integers (41_alu.md R92). -/
def ltSigned (a b : Word) : Bool := decide (a.toInt < b.toInt)

/-- `unsigned(a) < unsigned(b)` (R93). -/
def ltUnsigned (a b : Word) : Bool := decide (a.toNat < b.toNat)

/-- The word 1 or 0 that a comparison leaves (R92, R93). -/
def boolWord (c : Bool) : Word := if c then 0x00000001#32 else 0x00000000#32

/-- All 32 bits are equal (44_control.md R115). -/
def eqWord (a b : Word) : Bool := decide (a = b)

end Sys2Proof.Machine
end

