-- ==== Sys2Proof/Machine/Operands.lean ====
section
/-! DEFINITION. The operand forms: the 16-bit immediate is always sign-extended (30_encoding.md R58), as an addend, as a
byte displacement from a base register (45_loadstore.md R125), as a word count from the advanced pc (44_control.md R115). -/

namespace Sys2Proof.Machine

/-- `sext_16` (00_scope.md R7). -/
def sext16 (imm : Half) : Word := imm.signExtend 32

/-- `EA <- x[rs] +32 sext_16(imm)` (R125). -/
def effAddr (base : Word) (imm : Half) : Word := base + sext16 imm

/-- `wrap32(4 * signed(sext_16(imm)))` (R58, R115). -/
def branchDisp (imm : Half) : Word := BitVec.ofInt 32 (4 * (sext16 imm).toInt)

/-- The target of a taken branch, from the advanced pc (R115, R116). -/
def branchTarget (pc : Word) (imm : Half) : Word := pc + branchDisp imm

/-- The link register of `jalr`, always register 31 (R118). -/
def linkReg : RegNum := 31#5

end Sys2Proof.Machine
end

