-- ==== Sys2Proof/Config.lean ====
section
/-! DEFINITION. The implementation parameters of 00_scope.md R6. Those a step reads are fields of `Config`, so that a
claim quantifies over them; those only reset reads are in `RegInit`; those the spec fixes or decides, and the defaults
of the others, are in Machine/Defaults.lean. -/

namespace Sys2Proof

/-- A value of the pair (HI, LO) (10_state.md R14). -/
structure HiLo where
  hi : Word
  lo : Word
  deriving DecidableEq, Repr

/-- The parameters of R6 that a step reads, and the run input `CONSOLE_IN`; fixed for a run (10_state.md R10). Which
values are admissible is `Config.wellFormed` (20_memory.md R49). -/
structure Config where
  /-- `MEM_BYTES`: the memory holds the byte addresses below it (OPEN, D3). -/
  memBytes : Nat
  /-- `STDIN_ADDR`: address of the console input port (OPEN, D4). -/
  stdinAddr : Word
  /-- `STDOUT_ADDR`: address of the console output port (OPEN, D4). -/
  stdoutAddr : Word
  /-- `MEM_FILL`: the word the image does not cover (OPEN, D8). -/
  memFill : Word
  /-- `DIV_OVF`: what `div` leaves for -2^31 / -1 (OPEN, D14; 42_muldiv.md R107). -/
  divOvf : HiLo
  /-- `CONSOLE_IN`: the bytes the input port will deliver (D23). -/
  consoleIn : List Byte
  deriving DecidableEq, Repr

/-- `REG_INIT`: what reset puts into registers 1 to 31, HI and LO (OPEN, D7; 10_state.md R28). Entry `k` of
`gpr` is register `k + 1`. -/
structure RegInit where
  gpr : Vector Word 31
  hi : Word
  lo : Word
  deriving DecidableEq, Repr

end Sys2Proof
end

