-- ==== Sys2Proof/Syntax.lean ====
section
/-! DEFINITION. The 18 instructions (00_scope.md R2; 30_encoding.md R55), one constructor per row of the opcode table
and nothing else, and the source-level operand forms that the spec's scope keeps of the assembler (R4, R64 to R71). -/

namespace Sys2Proof

/-- An instruction with the operands its row lists (R60, R61). Every field has exactly the width of its field in the
word, so every term is well-formed; fields an instruction ignores (R56) are no operands. -/
inductive Instr where
  | add (rd rs rt : RegNum)
  | sub (rd rs rt : RegNum)
  | slt (rd rs rt : RegNum)
  | sltu (rd rs rt : RegNum)
  | mult (rs rt : RegNum)
  | multu (rs rt : RegNum)
  | div (rs rt : RegNum)
  | divu (rs rt : RegNum)
  | mfhi (rd : RegNum)
  | mflo (rd : RegNum)
  | lis (rd : RegNum)
  | jr (rs : RegNum)
  | jalr (rs : RegNum)
  | addi (rt rs : RegNum) (imm : Half)
  | beq (rs rt : RegNum) (imm : Half)
  | bne (rs rt : RegNum) (imm : Half)
  | lw (rt rs : RegNum) (imm : Half)
  | sw (rt rs : RegNum) (imm : Half)
  deriving DecidableEq, Repr

/-- The names of the 18 instructions, the rows of the opcode map (R60, R61). -/
inductive Mnemonic where
  | add | sub | slt | sltu | mult | multu | div | divu | mfhi | mflo | lis | jr | jalr | addi | beq | bne | lw | sw
  deriving DecidableEq, Repr

/-- The row of the opcode map an instruction belongs to. -/
def Instr.mnemonic : Instr → Mnemonic
  | .add _ _ _ => .add
  | .sub _ _ _ => .sub
  | .slt _ _ _ => .slt
  | .sltu _ _ _ => .sltu
  | .mult _ _ => .mult
  | .multu _ _ => .multu
  | .div _ _ => .div
  | .divu _ _ => .divu
  | .mfhi _ => .mfhi
  | .mflo _ => .mflo
  | .lis _ => .lis
  | .jr _ => .jr
  | .jalr _ => .jalr
  | .addi _ _ _ => .addi
  | .beq _ _ _ => .beq
  | .bne _ _ _ => .bne
  | .lw _ _ _ => .lw
  | .sw _ _ _ => .sw

/-- The token kinds of the scanner (30_encoding.md R65). -/
inductive TokenKind where
  | id | label | reg | int | hexInt | comma | lparen | rparen | word | importTok | exportTok
  deriving DecidableEq, Repr

/-- A numeric literal as written: `INT` (decimal) or `HEXINT` (R65, R68). -/
inductive Literal where
  | dec (n : Int)
  | hex (n : Nat)
  deriving DecidableEq, Repr

/-- The last operand of `beq` and `bne`: a literal offset, or a label, given by the address it stands for (R66, R70). -/
inductive BranchOperand where
  | lit (l : Literal)
  | label (addr : Nat)
  deriving DecidableEq, Repr

/-- The operand of `.word`: a literal, or a label given by its address (R66, R71). -/
inductive WordOperand where
  | lit (l : Literal)
  | label (addr : Nat)
  deriving DecidableEq, Repr

/-- The mnemonics written `op $d, $s, $t` (R66). -/
inductive Reg3Op where
  | add | sub | slt | sltu
  deriving DecidableEq, Repr

/-- The mnemonics written `op $s, $t` (R66). -/
inductive Reg2Op where
  | mult | multu | div | divu
  deriving DecidableEq, Repr

/-- The mnemonics written `op $d` (R66). -/
inductive DestOp where
  | mfhi | mflo | lis
  deriving DecidableEq, Repr

/-- The mnemonics written `op $s` (R66). -/
inductive SrcOp where
  | jr | jalr
  deriving DecidableEq, Repr

/-- The mnemonics written `op $s, $t, i` (R66). -/
inductive BranchOp where
  | beq | bne
  deriving DecidableEq, Repr

/-- The mnemonics written `op $t, i($s)` (R66). -/
inductive MemOp where
  | lw | sw
  deriving DecidableEq, Repr

/-- One instruction or `.word` as written in assembly, operands in the order written (R66). Register numbers and
literals are whatever the text says; their ranges are checked by `AsmLine.wellFormed` (R67, R68, R70, R71). -/
inductive AsmLine where
  | reg3 (op : Reg3Op) (d s t : Nat)
  | reg2 (op : Reg2Op) (s t : Nat)
  | dest (op : DestOp) (d : Nat)
  | src (op : SrcOp) (s : Nat)
  | addi (t s : Nat) (i : Literal)
  | branch (op : BranchOp) (s t : Nat) (i : BranchOperand)
  | mem (op : MemOp) (t : Nat) (i : Literal) (s : Nat)
  | word (w : WordOperand)
  deriving DecidableEq, Repr

/-- The token a literal is written with (R65). -/
def Literal.token : Literal → TokenKind
  | .dec _ => .int
  | .hex _ => .hexInt

/-- The token-kind sequence of a line (R66), labels of the line left aside. -/
def AsmLine.tokens : AsmLine → List TokenKind
  | .reg3 _ _ _ _ => [.id, .reg, .comma, .reg, .comma, .reg]
  | .reg2 _ _ _ => [.id, .reg, .comma, .reg]
  | .dest _ _ => [.id, .reg]
  | .src _ _ => [.id, .reg]
  | .addi _ _ i => [.id, .reg, .comma, .reg, .comma, i.token]
  | .branch _ _ _ (.lit i) => [.id, .reg, .comma, .reg, .comma, i.token]
  | .branch _ _ _ (.label _) => [.id, .reg, .comma, .reg, .comma, .id]
  | .mem _ _ i _ => [.id, .reg, .comma, i.token, .lparen, .reg, .rparen]
  | .word (.lit i) => [.word, i.token]
  | .word (.label _) => [.word, .id]

end Sys2Proof
end

