-- ==== Sys2Proof/WellFormed.lean ====
section
/-! DEFINITION. What well-formed means. A term of `Instr` is well-formed by its types (every field has its width, R51).
What can be ill-formed is checked here: the parameters (20_memory.md R49), the image (70_reset_and_hazards.md R161) and
the operands as written in assembly (30_encoding.md R67, R68, R70, R71). -/

namespace Sys2Proof

/-- The constraints on the parameters (R49, R6). -/
def Config.wellFormed (c : Config) : Bool :=
  decide (c.memBytes % 4 = 0) && decide (4 ≤ c.memBytes) && decide (c.memBytes ≤ 2 ^ 32)
    && decide (c.stdinAddr.toNat % 4 = 0) && decide (c.stdoutAddr.toNat % 4 = 0)
    && decide (c.stdinAddr ≠ c.stdoutAddr)

/-- An image of words fits the memory (R160, R161). -/
def Config.imageFits (c : Config) (image : List Word) : Bool :=
  decide (4 * image.length ≤ c.memBytes)

/-- A register operand names a number 0 to 31 (R67). -/
def regNumberOk (n : Nat) : Bool := decide (n ≤ 31)

/-- An immediate operand fits: a decimal in 16 bits signed, a hexadecimal in 16 bits unsigned (R68). -/
def Literal.fitsImm : Literal → Bool
  | .dec n => decide (-32768 ≤ n) && decide (n ≤ 32767)
  | .hex n => decide (n ≤ 0xFFFF)

/-- The offset in words from the instruction after a branch at `pc` to a label (R70). -/
def labelOffset (pc addr : Nat) : Int := ((addr : Int) - ((pc : Int) + 4)) / 4

/-- A branch operand fits: a literal as R68, a label whose offset is in range (R70). DESIGN CHOICE: a distance that is
no multiple of 4 is refused; R70 divides by 4 and labels are 4 apart by R69 (log entry 20). -/
def BranchOperand.fits (pc : Nat) : BranchOperand → Bool
  | .lit l => l.fitsImm
  | .label addr =>
    decide (((addr : Int) - ((pc : Int) + 4)) % 4 = 0)
      && decide (-32768 ≤ labelOffset pc addr) && decide (labelOffset pc addr ≤ 32767)

/-- A `.word` operand has a 32-bit value (R71). -/
def WordOperand.fits : WordOperand → Bool
  | .lit (.dec n) => decide (-2 ^ 31 ≤ n) && decide (n < 2 ^ 32)
  | .lit (.hex n) => decide (n < 2 ^ 32)
  | .label addr => decide (addr < 2 ^ 32)

/-- Every operand of a line at address `pc` is in range. -/
def AsmLine.wellFormed (pc : Nat) : AsmLine → Bool
  | .reg3 _ d s t => regNumberOk d && regNumberOk s && regNumberOk t
  | .reg2 _ s t => regNumberOk s && regNumberOk t
  | .dest _ d => regNumberOk d
  | .src _ s => regNumberOk s
  | .addi t s i => regNumberOk t && regNumberOk s && i.fitsImm
  | .branch _ s t i => regNumberOk s && regNumberOk t && i.fits pc
  | .mem _ t i s => regNumberOk t && regNumberOk s && i.fitsImm
  | .word w => w.fits

end Sys2Proof
end

