-- ==== Sys2Proof/Decode.lean ====
section
/-! DEFINITION. Fields, decoder, encoder, the opcode map, and the translation of a written line into its word
(30_encoding.md R51 to R71). The field positions other than opcode and funct are the spec's own, from the MIPS32
formats. UNVERIFIED (log entry 8). -/

namespace Sys2Proof

/-- `opcode = w[31:26]` (R51). -/
def opcodeOf (w : Word) : BitVec 6 := w.extractLsb' 26 6

/-- `rs = w[25:21]` (R51). -/
def rsOf (w : Word) : RegNum := w.extractLsb' 21 5

/-- `rt = w[20:16]` (R51). -/
def rtOf (w : Word) : RegNum := w.extractLsb' 16 5

/-- `rd = w[15:11]` (R51). -/
def rdOf (w : Word) : RegNum := w.extractLsb' 11 5

/-- `shamt = w[10:6]`, used by no instruction (R51). -/
def shamtOf (w : Word) : BitVec 5 := w.extractLsb' 6 5

/-- `funct = w[5:0]` (R51). -/
def functOf (w : Word) : BitVec 6 := w.extractLsb' 0 6

/-- `imm = w[15:0]` (R51). -/
def immOf (w : Word) : Half := w.extractLsb' 0 16

/-- `target = w[25:0]`, the J-format's field, used by no instruction (R51, R54). -/
def targetOf (w : Word) : BitVec 26 := w.extractLsb' 0 26

/-- Why a word is no instruction: the "unknown opcode/funct combination" of R55, by name (R62). -/
inductive DecodeReject where
  | unknownFunct (funct : BitVec 6)
  | unknownOpcode (opcode : BitVec 6)
  deriving DecidableEq, Repr

/-- Decode when `opcode = 0`: dispatch on funct (R55, R60). -/
def decodeR (w : Word) : Except DecodeReject Instr :=
  match functOf w with
  | 0x20#6 => .ok (.add (rdOf w) (rsOf w) (rtOf w))
  | 0x22#6 => .ok (.sub (rdOf w) (rsOf w) (rtOf w))
  | 0x2A#6 => .ok (.slt (rdOf w) (rsOf w) (rtOf w))
  | 0x2B#6 => .ok (.sltu (rdOf w) (rsOf w) (rtOf w))
  | 0x18#6 => .ok (.mult (rsOf w) (rtOf w))
  | 0x19#6 => .ok (.multu (rsOf w) (rtOf w))
  | 0x1A#6 => .ok (.div (rsOf w) (rtOf w))
  | 0x1B#6 => .ok (.divu (rsOf w) (rtOf w))
  | 0x10#6 => .ok (.mfhi (rdOf w))
  | 0x12#6 => .ok (.mflo (rdOf w))
  | 0x14#6 => .ok (.lis (rdOf w))
  | 0x08#6 => .ok (.jr (rsOf w))
  | 0x09#6 => .ok (.jalr (rsOf w))
  | f => .error (.unknownFunct f)

/-- Decode when `opcode` is not 0: dispatch on opcode (R55, R61). -/
def decodeI (w : Word) : Except DecodeReject Instr :=
  match opcodeOf w with
  | 0x08#6 => .ok (.addi (rtOf w) (rsOf w) (immOf w))
  | 0x04#6 => .ok (.beq (rsOf w) (rtOf w) (immOf w))
  | 0x05#6 => .ok (.bne (rsOf w) (rtOf w) (immOf w))
  | 0x23#6 => .ok (.lw (rtOf w) (rsOf w) (immOf w))
  | 0x2B#6 => .ok (.sw (rtOf w) (rsOf w) (immOf w))
  | o => .error (.unknownOpcode o)

/-- The decode function, total on all words (R55). Fields an instruction does not use are not looked at (R56).
UNVERIFIED: the spec's own decision between two it allows (D2; log entry 10). -/
def decode (w : Word) : Except DecodeReject Instr :=
  if opcodeOf w = 0#6 then decodeR w else decodeI w

/-- The instruction word whose low `nbits` bits are those of `w` (bit 0 the least significant) and whose other bits are
zero, as the opcode table numbers bits. -/
def tableWord (nbits w : Nat) : Word := BitVec.ofNat 32 (w % 2 ^ nbits)

/-- What the decoder reads from a word numbered as the opcode table numbers it (every instruction is one word, R50). -/
def decodeTableWord (nbits w : Nat) : Option Instr :=
  (decode (tableWord nbits w)).toOption

/-- The canonical R-format word (R52, R57): opcode and shamt 0. -/
def encodeR (funct : BitVec 6) (rd rs rt : RegNum) : Word :=
  0#6 ++ rs ++ rt ++ rd ++ 0#5 ++ funct

/-- The I-format word (R53, R57). -/
def encodeI (opcode : BitVec 6) (rs rt : RegNum) (imm : Half) : Word :=
  opcode ++ rs ++ rt ++ imm

/-- The canonical word of an instruction: operands in their fields, zero in every ignored field (R57). -/
def encode : Instr → Word
  | .add rd rs rt => encodeR 0x20#6 rd rs rt
  | .sub rd rs rt => encodeR 0x22#6 rd rs rt
  | .slt rd rs rt => encodeR 0x2A#6 rd rs rt
  | .sltu rd rs rt => encodeR 0x2B#6 rd rs rt
  | .mult rs rt => encodeR 0x18#6 0#5 rs rt
  | .multu rs rt => encodeR 0x19#6 0#5 rs rt
  | .div rs rt => encodeR 0x1A#6 0#5 rs rt
  | .divu rs rt => encodeR 0x1B#6 0#5 rs rt
  | .mfhi rd => encodeR 0x10#6 rd 0#5 0#5
  | .mflo rd => encodeR 0x12#6 rd 0#5 0#5
  | .lis rd => encodeR 0x14#6 rd 0#5 0#5
  | .jr rs => encodeR 0x08#6 0#5 rs 0#5
  | .jalr rs => encodeR 0x09#6 0#5 rs 0#5
  | .addi rt rs imm => encodeI 0x08#6 rs rt imm
  | .beq rs rt imm => encodeI 0x04#6 rs rt imm
  | .bne rs rt imm => encodeI 0x05#6 rs rt imm
  | .lw rt rs imm => encodeI 0x23#6 rs rt imm
  | .sw rt rs imm => encodeI 0x2B#6 rs rt imm

/-- The decoder's mask of a row: `0xFC00003F` in the R-format, `0xFC000000` in the I-format (R56, R60, R61). -/
def Mnemonic.decodeMask : Mnemonic → Word
  | .addi | .beq | .bne | .lw | .sw => 0xFC000000#32
  | _ => 0xFC00003F#32

/-- The column `match` of the opcode map: the canonical word with all operand fields zero (R60, R61). -/
def Mnemonic.matchWord : Mnemonic → Word
  | .jr => 0x00000008#32
  | .jalr => 0x00000009#32
  | .mfhi => 0x00000010#32
  | .mflo => 0x00000012#32
  | .lis => 0x00000014#32
  | .mult => 0x00000018#32
  | .multu => 0x00000019#32
  | .div => 0x0000001A#32
  | .divu => 0x0000001B#32
  | .add => 0x00000020#32
  | .sub => 0x00000022#32
  | .slt => 0x0000002A#32
  | .sltu => 0x0000002B#32
  | .beq => 0x10000000#32
  | .bne => 0x14000000#32
  | .addi => 0x20000000#32
  | .lw => 0x8C000000#32
  | .sw => 0xAC000000#32

/-- The bits of a word that its instruction ignores: the table of R56. -/
def Mnemonic.ignoredMask : Mnemonic → Word
  | .add | .sub | .slt | .sltu => 0x000007C0#32
  | .mult | .multu | .div | .divu => 0x0000FFC0#32
  | .mfhi | .mflo | .lis => 0x03FF07C0#32
  | .jr | .jalr => 0x001FFFC0#32
  | .addi | .beq | .bne | .lw | .sw => 0x00000000#32

/-- The assembly errors of an operand out of range. The rules name the first three (R67, R68, R70, R73). -/
inductive AsmError where
  /-- `RegisterRangeError`, or `RegisterOutOfRange` (R67, R73). -/
  | registerRange (n : Nat)
  /-- `ImmediateRangeError`, of a 16-bit literal (R68, R73). -/
  | immediateRange
  /-- `BranchOffsetOutOfRange`, of a branch to a label (R70, R73). -/
  | branchOffsetOutOfRange
  /-- A `.word` operand that no 32-bit word holds. DESIGN CHOICE: R71 gives the range, and no rule names the error
  (log entry 25). -/
  | wordRange
  deriving DecidableEq, Repr

/-- A register operand, never truncated (R67). -/
def asmReg (n : Nat) : Except AsmError RegNum :=
  if regNumberOk n then .ok (BitVec.ofNat 5 n) else .error (.registerRange n)

/-- The 16 bits of a literal: two's complement of a decimal, a hexadecimal as it is (R68). -/
def Literal.immBits : Literal → Half
  | .dec n => BitVec.ofInt 16 n
  | .hex n => BitVec.ofNat 16 n

/-- An immediate operand, never truncated (R68). -/
def asmImm (l : Literal) : Except AsmError Half :=
  if l.fitsImm then .ok l.immBits else .error .immediateRange

/-- A branch operand at address `pc`: a literal by R68, a label by the offset formula of R70. DESIGN CHOICE: a label whose
distance is no multiple of 4 gives the same error as one too far away (log entry 20). -/
def asmBranch (pc : Nat) : BranchOperand → Except AsmError Half
  | .lit l => asmImm l
  | .label addr =>
    if (BranchOperand.label addr).fits pc then .ok (BitVec.ofInt 16 (labelOffset pc addr))
    else .error .branchOffsetOutOfRange

/-- A `.word` operand: the 32-bit value or the label's address, emitted verbatim (R64, R71). Out of range it is the
error `wordRange`. DESIGN CHOICE (log entry 25). -/
def asmWordOperand (w : WordOperand) : Except AsmError Word :=
  if w.fits then
    match w with
    | .lit (.dec n) => .ok (BitVec.ofInt 32 n)
    | .lit (.hex n) => .ok (BitVec.ofNat 32 n)
    | .label addr => .ok (BitVec.ofNat 32 addr)
  else .error .wordRange

/-- The instruction `op $d, $s, $t` (R66). -/
def Reg3Op.instr : Reg3Op → RegNum → RegNum → RegNum → Instr
  | .add, d, s, t => .add d s t
  | .sub, d, s, t => .sub d s t
  | .slt, d, s, t => .slt d s t
  | .sltu, d, s, t => .sltu d s t

/-- The instruction `op $s, $t` (R66). -/
def Reg2Op.instr : Reg2Op → RegNum → RegNum → Instr
  | .mult, s, t => .mult s t
  | .multu, s, t => .multu s t
  | .div, s, t => .div s t
  | .divu, s, t => .divu s t

/-- The instruction `op $d` (R66). -/
def DestOp.instr : DestOp → RegNum → Instr
  | .mfhi, d => .mfhi d
  | .mflo, d => .mflo d
  | .lis, d => .lis d

/-- The instruction `op $s` (R66). -/
def SrcOp.instr : SrcOp → RegNum → Instr
  | .jr, s => .jr s
  | .jalr, s => .jalr s

/-- The instruction `op $s, $t, i` (R66). -/
def BranchOp.instr : BranchOp → RegNum → RegNum → Half → Instr
  | .beq, s, t, i => .beq s t i
  | .bne, s, t, i => .bne s t i

/-- The instruction `op $t, i($s)` (R66). -/
def MemOp.instr : MemOp → RegNum → RegNum → Half → Instr
  | .lw, t, s, i => .lw t s i
  | .sw, t, s, i => .sw t s i

/-- The word of one line at address `pc` (R64, R66 to R71). DESIGN CHOICE: of several operands out of range the first as
written gives the error (log entry 25). -/
def assemble (pc : Nat) : AsmLine → Except AsmError Word
  | .reg3 op d s t => do
    let d ← asmReg d
    let s ← asmReg s
    let t ← asmReg t
    pure (encode (op.instr d s t))
  | .reg2 op s t => do
    let s ← asmReg s
    let t ← asmReg t
    pure (encode (op.instr s t))
  | .dest op d => do
    let d ← asmReg d
    pure (encode (op.instr d))
  | .src op s => do
    let s ← asmReg s
    pure (encode (op.instr s))
  | .addi t s i => do
    let t ← asmReg t
    let s ← asmReg s
    let i ← asmImm i
    pure (encode (.addi t s i))
  | .branch op s t i => do
    let s ← asmReg s
    let t ← asmReg t
    let i ← asmBranch pc i
    pure (encode (op.instr s t i))
  | .mem op t i s => do
    let t ← asmReg t
    let i ← asmImm i
    let s ← asmReg s
    pure (encode (op.instr t s i))
  | .word w => asmWordOperand w

end Sys2Proof
end

