-- ==== Sys2Proof/Machine/Defaults.lean ====
section
/-! DEFINITION. The parameters of 00_scope.md R6 that the spec fixes or decides, and its defaults for the others. -/

namespace Sys2Proof

/-- `EOF_VALUE`, decided as minus one (R6, D5; 93_implementation_defined.md U2). -/
def Config.eofValue : Word := 0xFFFFFFFF#32

/-- `LOAD_BASE`: where word 0 of the image goes (R6). -/
def Config.loadBase : Nat := 0

/-- `RESET_PC` (R6, 10_state.md R28). -/
def Config.resetPc : Word := 0x00000000#32

/-- The spec's defaults (R6). DESIGN CHOICE: R6 gives `MEM_BYTES` no default; 0x1000 is the size of the spec's
test vectors (log entry 2). The port addresses are R6's defaults, which it takes from general knowledge (log entry 3).
DESIGN CHOICE: R6 makes `CONSOLE_IN` a run input with no default; it is empty here (log entry 26). -/
def Config.default : Config where
  memBytes := 0x1000
  stdinAddr := 0xFFFF0004#32
  stdoutAddr := 0xFFFF000C#32
  memFill := 0x00000000#32
  divOvf := { hi := 0x00000000#32, lo := 0x80000000#32 }
  consoleIn := []

/-- The spec's default of `REG_INIT`: all zero. DESIGN CHOICE (log entry 4). -/
def RegInit.zero : RegInit where
  gpr := Vector.replicate 31 0#32
  hi := 0#32
  lo := 0#32

end Sys2Proof
end

