-- ==== Sys2Proof/Machine/State.lean ====
section
/-! DEFINITION. The state of the core: the components of 10_state.md R10 and nothing else, beside them the parameters,
which are fixed for a run; the reasons a step can stop; and the state after reset (R28). -/

namespace Sys2Proof.Machine

/-- The engine's state machine (R18). -/
inductive RunState where
  | running
  | halted
  deriving DecidableEq, Repr

/-- The two sub-causes of `MemoryFault` (R20; 60_exceptions.md R131, R132). -/
inductive MemFaultKind where
  | unaligned
  | outOfBounds
  deriving DecidableEq, Repr

/-- Why the core is halted (R20). -/
inductive HaltCause where
  | none
  | stop
  | decodeError
  | memoryFault (kind : MemFaultKind)
  deriving DecidableEq, Repr

/-- The memory: bytes by address, strictly rising, none equal to what an unlisted address reads as. The spec stores
words and says that a byte order inside is unobservable (20_memory.md R39). DESIGN CHOICE: bytes, big-endian as the
image (log entry 7). -/
abbrev Memory := List Host.Cell

/-- The complete state of the core (R10) and, in `cfg`, the parameters of its run. DESIGN CHOICE: the parameters ride in
the state, unchanged by every step, so that claims quantify over them (log entry 1). -/
structure State where
  /-- Registers 1 to 31: entry `k` is register `k + 1`; register 0 has no storage (R10, R11, R12). -/
  gpr : Vector Word 31
  /-- `HI` (R14). -/
  hi : Word
  /-- `LO` (R14). -/
  lo : Word
  /-- The program counter, a byte address (R15). -/
  pc : Word
  /-- `M` (R21). -/
  mem : Memory
  /-- `run_state` (R18). -/
  runState : RunState
  /-- `stop_flag` (R19). -/
  stopFlag : Bool
  /-- `halt_cause` (R20). -/
  haltCause : HaltCause
  /-- `halt_info` (R20). -/
  haltInfo : Word
  /-- `in_pos` (R22). -/
  inPos : Nat
  /-- `OUT`, oldest byte first (R23). -/
  out : List Byte
  /-- The model's own field: the parameters (00_scope.md R6). -/
  cfg : Config
  deriving DecidableEq, Repr

/-- A step of this core never stops the machine: each of the spec's faults has a state after it (60_exceptions.md R139,
R140), every state has exactly one successor per cycle, "the core is never stuck" (93_implementation_defined.md U16). So
there is no reason to list, and no step can answer `fault`. DEDUCED (log entry 11): safe, nothing can be raised. -/
inductive Fault where
  deriving DecidableEq, Repr

/-- Why an instruction would have no meaning here. -/
inductive Refusal where
  /-- Raised by `exec` alone, for an instruction that has no meaning yet: none is left, so nothing raises it. Safe: the
  machine would stop where the hardware goes on. -/
  | notModelled (mnemonic : String)
  deriving DecidableEq, Repr

/-- The state after reset with the parameters `c`, the register values `r` and an empty image (R28, 70_reset_and_hazards.md
R160): an unlisted byte of memory reads as its byte of `MEM_FILL`. -/
def State.blank (c : Config) (r : RegInit) : State where
  gpr := r.gpr
  hi := r.hi
  lo := r.lo
  pc := Config.resetPc
  mem := []
  runState := .running
  stopFlag := false
  haltCause := .none
  haltInfo := 0#32
  inPos := 0
  out := []
  cfg := c

/-- The machine right after reset at the spec's defaults, nothing placed in memory (R28). DESIGN CHOICE: the values the
spec leaves OPEN stand at its defaults here, and the run input `CONSOLE_IN` is empty (log entries 2 to 6, 26). -/
def State.reset : State := State.blank Config.default RegInit.zero

end Sys2Proof.Machine
end

