-- ==== Sys2Proof/Machine/Ops.lean ====
section
/-! DEFINITION. The named operations over registers, memory, ports and the halt. The access primitives are those of
20_memory.md R33 to R37, in the order of checks of R32; taking an exception is `State.raise` (60_exceptions.md R139).
There is no return from one: `Halted` is terminal (R141). -/

namespace Sys2Proof.Machine

/-! ## Memory as bytes -/

/-- Byte `k` of a word, byte 0 the most significant: the order of the image's bytes (20_memory.md R39). -/
def wordByte (w : Word) (k : Nat) : Byte := w.extractLsb' (24 - 8 * k) 8

/-- The word of four bytes, the first the most significant (R39). -/
def wordOfBytes (b0 b1 b2 b3 : Byte) : Word := b0 ++ b1 ++ b2 ++ b3

/-- What an unlisted address reads as: its byte of `MEM_FILL` (10_state.md R28). -/
def fillByte (fill : Word) (a : Nat) : Byte := wordByte fill (a % 4)

/-- The byte at an address. -/
def Memory.readByte (fill : Word) : Memory → Nat → Byte
  | [], a => fillByte fill a
  | (k, b) :: m, a => if k = a then b else Memory.readByte fill m a

/-- The memory with an address unlisted. -/
def Memory.erase (m : Memory) (a : Nat) : Memory := m.filter fun c => decide (c.1 ≠ a)

/-- The memory with one more byte listed, before the first larger address. -/
def Memory.insert : Memory → Nat → Byte → Memory
  | [], a, b => [(a, b)]
  | c :: m, a, b => if a < c.1 then (a, b) :: c :: m else c :: Memory.insert m a b

/-- Write one byte and keep the canonical form: the fill value is not listed. -/
def Memory.writeByte (fill : Word) (m : Memory) (a : Nat) (b : Byte) : Memory :=
  if b = fillByte fill a then m.erase a else (m.erase a).insert a b

/-- The word whose byte address is `a` (10_state.md R21): its four bytes, most significant first. -/
def Memory.readWord (fill : Word) (m : Memory) (a : Nat) : Word :=
  wordOfBytes (m.readByte fill a) (m.readByte fill (a + 1)) (m.readByte fill (a + 2)) (m.readByte fill (a + 3))

/-- Write all 32 bits of a word at the byte address `a` (20_memory.md R34). -/
def Memory.writeWord (fill : Word) (m : Memory) (a : Nat) (v : Word) : Memory :=
  (((m.writeByte fill a (wordByte v 0)).writeByte fill (a + 1) (wordByte v 1)).writeByte fill (a + 2)
    (wordByte v 2)).writeByte fill (a + 3) (wordByte v 3)

/-- The canonical form: addresses strictly rising, no entry equal to what an unlisted address reads as. -/
def Memory.wf (fill : Word) (m : Memory) : Bool :=
  decide (m.Pairwise fun c d => c.1 < d.1) && m.all fun c => decide (c.2 ≠ fillByte fill c.1)

/-- Every listed address lies below `n` (the memory is `0 .. MEM_BYTES-1`, R21). -/
def Memory.within (n : Nat) (m : Memory) : Bool := m.all fun c => decide (c.1 < n)

/-- The byte of the state's memory at an address. -/
def State.byteAt (s : State) (a : Nat) : Byte := s.mem.readByte s.cfg.memFill a

/-- `M[a]` of the state, with no check (00_scope.md R8). -/
def State.wordAt (s : State) (a : Nat) : Word := s.mem.readWord s.cfg.memFill a

/-- `M[a] <- v` (R8). -/
def State.setWord (s : State) (a : Nat) (v : Word) : State :=
  { s with mem := s.mem.writeWord s.cfg.memFill a v }

/-! ## Registers -/

/-- Register numbers other than 0 index the 31 stored registers. -/
theorem regIndex_lt {r : RegNum} (h : r ≠ 0#5) : r.toNat - 1 < 31 := by
  have h1 := r.isLt
  have h2 : r.toNat ≠ 0 := fun e => h (BitVec.eq_of_toNat_eq e)
  omega

/-- `x[r]`: register 0 reads as 0 always (10_state.md R12). -/
def State.readReg (s : State) (r : RegNum) : Word :=
  if h : r = 0#5 then 0#32 else s.gpr[r.toNat - 1]'(regIndex_lt h)

/-- `x[r] <- v`: a write to register 0 is discarded (R12). -/
def State.writeReg (s : State) (r : RegNum) (v : Word) : State :=
  if h : r = 0#5 then s else { s with gpr := s.gpr.set (r.toNat - 1) v (regIndex_lt h) }

/-- `HI <- v.hi; LO <- v.lo`, always as a pair (R14). -/
def State.setHiLo (s : State) (v : HiLo) : State := { s with hi := v.hi, lo := v.lo }

/-- `pc <- v`, unchecked (44_control.md R120). -/
def State.setPc (s : State) (v : Word) : State := { s with pc := v }

/-- `pc <- pc +32 4`: the step's advance, and the second one of `lis` (10_state.md R16). -/
def State.advance (s : State) : State := s.setPc (s.pc + 4#32)

/-! ## Halting -/

/-- The halt of 60_exceptions.md R139: `run_state`, `halt_cause` and `halt_info` are written, and nothing else. -/
def State.raise (s : State) (cause : HaltCause) (info : Word) : State :=
  { s with runState := .halted, haltCause := cause, haltInfo := info }

/-- A memory access that does not happen: its kind and the offending byte address (R131, R132). -/
structure MemFault where
  kind : MemFaultKind
  addr : Word
  deriving DecidableEq, Repr

/-- `raise MemoryFault(kind, addr)` (00_scope.md R8). -/
def State.raiseMem (s : State) (f : MemFault) : State := s.raise (.memoryFault f.kind) f.addr

/-- The halt of the stop check (40_step.md R80). -/
def State.haltStop (s : State) : State := s.raise .stop 0#32

/-- The number of a halt cause (10_state.md R20). -/
def HaltCause.code : HaltCause → Nat
  | .none => 0
  | .stop => 1
  | .decodeError => 2
  | .memoryFault .unaligned => 3
  | .memoryFault .outOfBounds => 4

/-! ## The console ports -/

/-- `sext_8` (00_scope.md R7). -/
def sext8 (b : Byte) : Word := b.signExtend 32

/-- `ConsoleIn()`: the next input byte, sign-extended and consumed, or `EOF_VALUE` (20_memory.md R36). -/
def State.consoleIn (s : State) : Word × State :=
  match s.cfg.consoleIn[s.inPos]? with
  | some b => (sext8 b, { s with inPos := s.inPos + 1 })
  | none => (Config.eofValue, s)

/-- `ConsoleOut(b)` (R37). -/
def State.consoleOut (s : State) (b : Byte) : State := { s with out := s.out ++ [b] }

/-! ## The access primitives -/

/-- `FetchWord(a)`: the instruction-side read, which never reaches a port (R35). -/
def State.fetchWord (s : State) (a : Word) : Except MemFault Word :=
  if a.toNat % 4 ≠ 0 then .error { kind := .unaligned, addr := a }
  else if s.cfg.memBytes ≤ a.toNat then .error { kind := .outOfBounds, addr := a }
  else .ok (s.wordAt a.toNat)

/-- `MemRead(a, 4)`: the data-side read, used only by `lw` (R33). -/
def State.memRead (s : State) (a : Word) : Except MemFault (Word × State) :=
  if a.toNat % 4 ≠ 0 then .error { kind := .unaligned, addr := a }
  else if a = s.cfg.stdinAddr then .ok s.consoleIn
  else if s.cfg.memBytes ≤ a.toNat then .error { kind := .outOfBounds, addr := a }
  else .ok (s.wordAt a.toNat, s)

/-- `MemWrite(a, 4, v)`: the data-side write, used only by `sw` (R34). -/
def State.memWrite (s : State) (a v : Word) : Except MemFault State :=
  if a.toNat % 4 ≠ 0 then .error { kind := .unaligned, addr := a }
  else if a = s.cfg.stdoutAddr then .ok (s.consoleOut (v.extractLsb' 0 8))
  else if s.cfg.memBytes ≤ a.toNat then .error { kind := .outOfBounds, addr := a }
  else .ok (s.setWord a.toNat v)

end Sys2Proof.Machine
end

