-- ==== Sys2Proof/Machine/Alu.lean ====
section
/-! DEFINITION. `add`, `sub`, `slt`, `sltu`, `addi` (41_alu.md R90 to R95). The pc has been advanced; results wrap and
nothing traps (R95). What the names compute is the spec's reading of them. UNVERIFIED (log entry 9). -/

namespace Sys2Proof.Machine

/-- Read both sources, write one destination (R84, R95). -/
def aluReg (f : Word → Word → Word) (rd rs rt : RegNum) (s : State) : Host.Outcome State Fault Refusal :=
  .next (s.writeReg rd (f (s.readReg rs) (s.readReg rt)))

/-- `add rd, rs, rt` (R90). -/
def execAdd (rd rs rt : RegNum) (s : State) : Host.Outcome State Fault Refusal :=
  aluReg (fun a b => a + b) rd rs rt s

/-- `sub rd, rs, rt` (R91). -/
def execSub (rd rs rt : RegNum) (s : State) : Host.Outcome State Fault Refusal :=
  aluReg (fun a b => a - b) rd rs rt s

/-- `slt rd, rs, rt` (R92). -/
def execSlt (rd rs rt : RegNum) (s : State) : Host.Outcome State Fault Refusal :=
  aluReg (fun a b => boolWord (ltSigned a b)) rd rs rt s

/-- `sltu rd, rs, rt` (R93). -/
def execSltu (rd rs rt : RegNum) (s : State) : Host.Outcome State Fault Refusal :=
  aluReg (fun a b => boolWord (ltUnsigned a b)) rd rs rt s

/-- `addi rt, rs, imm` (R94). -/
def execAddi (rt rs : RegNum) (imm : Half) (s : State) : Host.Outcome State Fault Refusal :=
  .next (s.writeReg rt (s.readReg rs + sext16 imm))

end Sys2Proof.Machine
end

