-- ==== Sys2Proof/Machine/Control.lean ====
section
/-! DEFINITION. `beq`, `bne`, `jr`, `jalr` (44_control.md R115 to R120). The pc has been advanced; there are no delay
slots (R119) and targets are not checked here (R120). Conditions and the link are the spec's reading of the names.
UNVERIFIED (log entry 9). -/

namespace Sys2Proof.Machine

/-- Branch when the condition holds (R115, R116). -/
def branchIf (taken : Bool) (imm : Half) (s : State) : Host.Outcome State Fault Refusal :=
  if taken then .next (s.setPc (branchTarget s.pc imm)) else .next s

/-- `beq rs, rt, imm` (R115). -/
def execBeq (rs rt : RegNum) (imm : Half) (s : State) : Host.Outcome State Fault Refusal :=
  branchIf (eqWord (s.readReg rs) (s.readReg rt)) imm s

/-- `bne rs, rt, imm` (R116). -/
def execBne (rs rt : RegNum) (imm : Half) (s : State) : Host.Outcome State Fault Refusal :=
  branchIf (!eqWord (s.readReg rs) (s.readReg rt)) imm s

/-- `jr rs` (R117). -/
def execJr (rs : RegNum) (s : State) : Host.Outcome State Fault Refusal :=
  .next (s.setPc (s.readReg rs))

/-- `jalr rs`: the target is read before the link is written (R118). -/
def execJalr (rs : RegNum) (s : State) : Host.Outcome State Fault Refusal :=
  .next ((s.writeReg linkReg s.pc).setPc (s.readReg rs))

end Sys2Proof.Machine
end

