-- ==== Sys2Proof/Machine/Lis.lean ====
section
/-! DEFINITION. `lis` (43_lis.md R110). -/

namespace Sys2Proof.Machine

/-- `lis rd`: load the word at the advanced pc, an instruction-side read, and skip it. A read that faults halts the core
with nothing else written. For register 0 the write alone is discarded (10_state.md R12). -/
def execLis (rd : RegNum) (s : State) : Host.Outcome State Fault Refusal :=
  match s.fetchWord s.pc with
  | .error f => .next (s.raiseMem f)
  | .ok v => .next (s.writeReg rd v).advance

end Sys2Proof.Machine
end

