-- ==== Sys2Proof/Machine/LoadStore.lean ====
section
/-! DEFINITION. `lw`, `sw` (45_loadstore.md R125 to R127): the only instructions that reach memory as data, and the only
ones that reach the console ports. -/

namespace Sys2Proof.Machine

/-- `lw rt, imm(rs)` (R126). The read happens with all its effects also for register 0 (10_state.md R12). -/
def execLw (rt rs : RegNum) (imm : Half) (s : State) : Host.Outcome State Fault Refusal :=
  match s.memRead (effAddr (s.readReg rs) imm) with
  | .error f => .next (s.raiseMem f)
  | .ok r => .next (r.2.writeReg rt r.1)

/-- `sw rt, imm(rs)` (R127). -/
def execSw (rt rs : RegNum) (imm : Half) (s : State) : Host.Outcome State Fault Refusal :=
  match s.memWrite (effAddr (s.readReg rs) imm) (s.readReg rt) with
  | .error f => .next (s.raiseMem f)
  | .ok t => .next t

end Sys2Proof.Machine
end

