-- ==== Sys2Proof/Machine/MulDiv.lean ====
section
/-! DEFINITION. `mult`, `multu`, `div`, `divu`, `mfhi`, `mflo` (42_muldiv.md R100 to R107). Each of the first four writes
HI and LO as a pair; nothing traps. Signedness, and which of HI and LO takes the quotient, are the spec's reading of the
names. UNVERIFIED (log entry 9). -/

namespace Sys2Proof.Machine

/-- A 64-bit pattern split: HI its high word, LO its low word (R100, R101). -/
def splitProduct (p : BitVec 64) : HiLo where
  hi := p.extractLsb' 32 32
  lo := p.extractLsb' 0 32

/-- The signed product (R100). -/
def mulSigned (a b : Word) : HiLo := splitProduct (BitVec.ofInt 64 (a.toInt * b.toInt))

/-- The unsigned product (R101). -/
def mulUnsigned (a b : Word) : HiLo := splitProduct (BitVec.ofNat 64 (a.toNat * b.toNat))

/-- The signed division: by zero HI = LO = 0; -2^31 / -1 leaves `DIV_OVF`; else LO the quotient rounded toward zero and
HI the remainder (R102, R107). -/
def divSigned (ovf : HiLo) (a b : Word) : HiLo :=
  if b.toInt = 0 then { hi := 0#32, lo := 0#32 }
  else if a.toInt = -2 ^ 31 ∧ b.toInt = -1 then ovf
  else { hi := BitVec.ofInt 32 (a.toInt.tmod b.toInt), lo := BitVec.ofInt 32 (a.toInt.tdiv b.toInt) }

/-- The unsigned division (R103). -/
def divUnsigned (a b : Word) : HiLo :=
  if b.toNat = 0 then { hi := 0#32, lo := 0#32 }
  else { hi := BitVec.ofNat 32 (a.toNat % b.toNat), lo := BitVec.ofNat 32 (a.toNat / b.toNat) }

/-- Read both sources, write HI and LO (R106). -/
def mulDivReg (f : Word → Word → HiLo) (rs rt : RegNum) (s : State) : Host.Outcome State Fault Refusal :=
  .next (s.setHiLo (f (s.readReg rs) (s.readReg rt)))

/-- `mult rs, rt` (R100). -/
def execMult (rs rt : RegNum) (s : State) : Host.Outcome State Fault Refusal := mulDivReg mulSigned rs rt s

/-- `multu rs, rt` (R101). -/
def execMultu (rs rt : RegNum) (s : State) : Host.Outcome State Fault Refusal := mulDivReg mulUnsigned rs rt s

/-- `div rs, rt` (R102, R107). -/
def execDiv (rs rt : RegNum) (s : State) : Host.Outcome State Fault Refusal :=
  mulDivReg (divSigned s.cfg.divOvf) rs rt s

/-- `divu rs, rt` (R103). -/
def execDivu (rs rt : RegNum) (s : State) : Host.Outcome State Fault Refusal := mulDivReg divUnsigned rs rt s

/-- `mfhi rd` (R104). -/
def execMfhi (rd : RegNum) (s : State) : Host.Outcome State Fault Refusal := .next (s.writeReg rd s.hi)

/-- `mflo rd` (R105). -/
def execMflo (rd : RegNum) (s : State) : Host.Outcome State Fault Refusal := .next (s.writeReg rd s.lo)

end Sys2Proof.Machine
end

