-- ==== Sys2Proof/Machine/Cycle.lean ====
section
/-! DEFINITION. The cycle: stop check, fetch, advance, decode, execute (40_step.md R80, R81). -/

namespace Sys2Proof.Machine

/-- `step()` of R81: fetch, then advance the pc, then decode, then execute. A fetch fault leaves the pc, a decode error
leaves it advanced (60_exceptions.md R140). -/
def fetchDecodeExecute (s : State) : Host.Outcome State Fault Refusal :=
  match s.fetchWord s.pc with
  | .error f => .next (s.raiseMem f)
  | .ok w =>
    match decode w with
    | .error _ => .next (s.advance.raise .decodeError w)
    | .ok i => exec i s.advance

/-- `cycle()` of R80. In `Halted` nothing changes, ever; a stop request halts before the fetch. -/
def cycle (s : State) : Host.Outcome State Fault Refusal :=
  match s.runState with
  | .halted => .next s
  | .running => if s.stopFlag then .next s.haltStop else fetchDecodeExecute s

/-- Place an instruction word where the next fetch reads it: at the pc. Where no fetch can succeed (a pc that is
unaligned or out of bounds, 20_memory.md R35) there is no such place, and nothing changes. -/
def State.placeWord (s : State) (w : Word) : State :=
  if s.pc.toNat % 4 = 0 ∧ s.pc.toNat < s.cfg.memBytes then s.setWord s.pc.toNat w else s

end Sys2Proof.Machine
end

