-- ==== Sys2Proof/Machine/Boundary.lean ====
section
/-! DEFINITION. The boundary between core and host (10_state.md R25): reset with an image and the parameters, the stop
request, and the host driving cycles. The status port is `runState`, `HaltCause.code` and `haltInfo`; observation is
the state itself, plain data (R26). -/

namespace Sys2Proof.Machine

/-- Why a load is refused before the run (70_reset_and_hazards.md R161). -/
inductive LoadRefusal where
  /-- The image is longer than the memory. -/
  | imageTooLong
  /-- The image's byte length is no multiple of 4. -/
  | imageNotWords
  deriving DecidableEq, Repr

/-- The words of an image held as bytes: each group of four, first byte most significant (R161, 20_memory.md R39). -/
def imageOfBytes : List Byte → Except LoadRefusal (List Word)
  | [] => .ok []
  | b0 :: b1 :: b2 :: b3 :: rest =>
    match imageOfBytes rest with
    | .ok ws => .ok (wordOfBytes b0 b1 b2 b3 :: ws)
    | .error e => .error e
  | _ => .error .imageNotWords

/-- Words placed at consecutive word addresses from `a` (R161). -/
def State.loadWords (s : State) (a : Nat) : List Word → State
  | [] => s
  | w :: ws => (s.setWord a w).loadWords (a + 4) ws

/-- `reset(IMAGE, CONSOLE_IN)` with the parameters: the whole state anew, or the load refused (R160, R161). -/
def State.powerOn (c : Config) (r : RegInit) (image : List Word) : Except LoadRefusal State :=
  if c.imageFits image then .ok ((State.blank c r).loadWords Config.loadBase image) else .error .imageTooLong

/-- `stop()`: the host latches the stop request (10_state.md R19). DEDUCED: after the halt it has no effect
(60_exceptions.md R141; log entry 12). -/
def State.requestStop (s : State) : State :=
  match s.runState with
  | .running => { s with stopFlag := true }
  | .halted => s

/-- One cycle driven by the host, which raises the stop request before it or not. -/
def hostCycle (stop : Bool) (s : State) : Host.Outcome State Fault Refusal :=
  step (if stop then s.requestStop else s)

/-- A run under a `STOP_SCHEDULE`: one entry a cycle, true where the host has raised the stop request since the last
check (00_scope.md R6; a request raised while a step is in progress is seen at the next cycle's top, 40_step.md R80).
The list is also the fuel (R85). -/
def runSchedule : List Bool → State → Host.Outcome State Fault Refusal
  | [], s => .next s
  | b :: bs, s =>
    match hostCycle b s with
    | .next t => runSchedule bs t
    | .fault f => .fault f
    | .refused r => .refused r

end Sys2Proof.Machine
end

