-- ==== Sys2Proof/Safety.lean ====
section
/-! DEFINITION. The terms claims are made in: the invariant of the core, what an instruction leaves unchanged, and what a
run without a fault is. -/

namespace Sys2Proof.Machine

/-- `halt_cause` and `halt_info` say what 10_state.md R20 and 60_exceptions.md R130 say of them: `None` exactly while
running; the recorded word is 0, a word that does not decode, an unaligned address, or an aligned address at or beyond
`MEM_BYTES`. -/
def State.haltWf (s : State) : Bool :=
  match s.haltCause with
  | .none => decide (s.runState = .running) && decide (s.haltInfo = 0#32)
  | .stop => decide (s.runState = .halted) && decide (s.haltInfo = 0#32) && s.stopFlag
  | .decodeError => decide (s.runState = .halted) && (decode s.haltInfo).toOption.isNone
  | .memoryFault .unaligned => decide (s.runState = .halted) && decide (s.haltInfo.toNat % 4 ≠ 0)
  | .memoryFault .outOfBounds =>
    decide (s.runState = .halted) && decide (s.haltInfo.toNat % 4 = 0)
      && decide (s.cfg.memBytes ≤ s.haltInfo.toNat)

/-- The memory is in its canonical form and lists only addresses that exist (R21). -/
def State.memWf (s : State) : Bool := Memory.wf s.cfg.memFill s.mem && Memory.within s.cfg.memBytes s.mem

/-- The invariant: admissible parameters (20_memory.md R49), canonical memory, `0 <= in_pos <= length(CONSOLE_IN)`
(10_state.md R10), and a halt record that tells the truth. -/
def State.Inv (s : State) : Prop :=
  s.cfg.wellFormed = true ∧ s.memWf = true ∧ s.inPos ≤ s.cfg.consoleIn.length ∧ s.haltWf = true

/-- No fault has ended the run: the core is running or was stopped by the host (40_step.md R87). -/
def State.noFault (s : State) : Bool :=
  match s.haltCause with
  | .none | .stop => true
  | _ => false

/-- Every general register outside the list reads as before. -/
def SameRegsExcept (l : List RegNum) (s t : State) : Prop := ∀ r : RegNum, r ∉ l → t.readReg r = s.readReg r

/-- HI and LO are as before. -/
def SameHiLo (s t : State) : Prop := t.hi = s.hi ∧ t.lo = s.lo

/-- Every byte of memory reads as before. -/
def SameMemory (s t : State) : Prop := ∀ a : Nat, t.byteAt a = s.byteAt a

/-- Every byte of memory outside the four at `a` reads as before. -/
def SameMemoryExceptWord (a : Nat) (s t : State) : Prop :=
  ∀ b : Nat, b < a ∨ a + 4 ≤ b → t.byteAt b = s.byteAt b

/-- Nothing was read from or written to the console. -/
def SameConsole (s t : State) : Prop := t.inPos = s.inPos ∧ t.out = s.out

/-- `run_state`, `stop_flag`, `halt_cause` and `halt_info` are as before. -/
def SameEngine (s t : State) : Prop :=
  t.runState = s.runState ∧ t.stopFlag = s.stopFlag ∧ t.haltCause = s.haltCause ∧ t.haltInfo = s.haltInfo

/-- The core is halted with this cause and information, and the stop flag is as before. -/
def HaltedWith (cause : HaltCause) (info : Word) (s t : State) : Prop :=
  t.runState = .halted ∧ t.haltCause = cause ∧ t.haltInfo = info ∧ t.stopFlag = s.stopFlag

/-- Everything a fault leaves alone is unchanged: all registers, HI, LO, the pc, memory, console, parameters
(60_exceptions.md R140). -/
def SameProgramState (s t : State) : Prop :=
  SameRegsExcept [] s t ∧ SameHiLo s t ∧ t.pc = s.pc ∧ SameMemory s t ∧ SameConsole s t ∧ t.cfg = s.cfg

/-- Only the general register `r` may differ. -/
def OnlyReg (r : RegNum) (s t : State) : Prop :=
  SameRegsExcept [r] s t ∧ SameHiLo s t ∧ t.pc = s.pc ∧ SameMemory s t ∧ SameConsole s t ∧ SameEngine s t ∧
    t.cfg = s.cfg

/-- Only HI and LO may differ. -/
def OnlyHiLo (s t : State) : Prop :=
  SameRegsExcept [] s t ∧ t.pc = s.pc ∧ SameMemory s t ∧ SameConsole s t ∧ SameEngine s t ∧ t.cfg = s.cfg

/-- Only the pc and the general registers in the list may differ. -/
def OnlyPcAndRegs (l : List RegNum) (s t : State) : Prop :=
  SameRegsExcept l s t ∧ SameHiLo s t ∧ SameMemory s t ∧ SameConsole s t ∧ SameEngine s t ∧ t.cfg = s.cfg

/-! ## The spec's own formulas, for statements -/

/-- `encode_R` as 30_encoding.md R57 writes it: `(rs << 21) | (rt << 16) | (rd << 11) | funct`. -/
def wordR (funct : Word) (rd rs rt : RegNum) : Word :=
  (rs.setWidth 32 <<< 21) ||| (rt.setWidth 32 <<< 16) ||| (rd.setWidth 32 <<< 11) ||| funct

/-- `encode_I` as R57 writes it: `(opcode << 26) | (rs << 21) | (rt << 16) | imm`. -/
def wordI (opcode : Word) (rs rt : RegNum) (imm : Half) : Word :=
  (opcode <<< 26) ||| (rs.setWidth 32 <<< 21) ||| (rt.setWidth 32 <<< 16) ||| imm.setWidth 32

/-- The canonical word of each instruction by R57's formulas and the numbers of R60 and R61. -/
def canonicalWord : Instr → Word
  | .add rd rs rt => wordR 0x20#32 rd rs rt
  | .sub rd rs rt => wordR 0x22#32 rd rs rt
  | .slt rd rs rt => wordR 0x2A#32 rd rs rt
  | .sltu rd rs rt => wordR 0x2B#32 rd rs rt
  | .mult rs rt => wordR 0x18#32 0#5 rs rt
  | .multu rs rt => wordR 0x19#32 0#5 rs rt
  | .div rs rt => wordR 0x1A#32 0#5 rs rt
  | .divu rs rt => wordR 0x1B#32 0#5 rs rt
  | .mfhi rd => wordR 0x10#32 rd 0#5 0#5
  | .mflo rd => wordR 0x12#32 rd 0#5 0#5
  | .lis rd => wordR 0x14#32 rd 0#5 0#5
  | .jr rs => wordR 0x08#32 0#5 rs 0#5
  | .jalr rs => wordR 0x09#32 0#5 rs 0#5
  | .addi rt rs imm => wordI 0x08#32 rs rt imm
  | .beq rs rt imm => wordI 0x04#32 rs rt imm
  | .bne rs rt imm => wordI 0x05#32 rs rt imm
  | .lw rt rs imm => wordI 0x23#32 rs rt imm
  | .sw rt rs imm => wordI 0x2B#32 rs rt imm

/-- The general registers an instruction may write: the last column of the table of 10_state.md R13. -/
def destRegs : Instr → List RegNum
  | .add rd _ _ | .sub rd _ _ | .slt rd _ _ | .sltu rd _ _ => [rd]
  | .mfhi rd | .mflo rd | .lis rd => [rd]
  | .addi rt _ _ | .lw rt _ _ => [rt]
  | .jalr _ => [31#5]
  | .mult _ _ | .multu _ _ | .div _ _ | .divu _ _ | .jr _ | .beq _ _ _ | .bne _ _ _ | .sw _ _ _ => []

/-- The ranges of an immediate as 30_encoding.md R68 writes them. -/
def Literal.InRange : Literal → Prop
  | .dec n => -32768 ≤ n ∧ n ≤ 32767
  | .hex n => n ≤ 0xFFFF

/-- A literal as R68, or a label a whole number of words, in -32768 .. 32767, from the instruction after the branch
(R70; that the number is whole is log entry 20). -/
def BranchOperand.InRange (pc : Nat) : BranchOperand → Prop
  | .lit i => Literal.InRange i
  | .label addr => ∃ k : Int, -32768 ≤ k ∧ k ≤ 32767 ∧ (addr : Int) = (pc : Int) + 4 + 4 * k

/-- The ranges of a `.word` operand as R71 writes them; a label's address is 32 bits. -/
def WordOperand.InRange : WordOperand → Prop
  | .lit (.dec n) => -2 ^ 31 ≤ n ∧ n ≤ 2 ^ 32 - 1
  | .lit (.hex n) => n ≤ 0xFFFFFFFF
  | .label addr => addr < 2 ^ 32

/-- Every operand of a line at address `pc` lies in the range that R67, R68, R70 and R71 write, no check of the model
used. -/
def AsmLine.InRange (pc : Nat) : AsmLine → Prop
  | .reg3 _ d s t => d ≤ 31 ∧ s ≤ 31 ∧ t ≤ 31
  | .reg2 _ s t => s ≤ 31 ∧ t ≤ 31
  | .dest _ d => d ≤ 31
  | .src _ s => s ≤ 31
  | .addi t s i => t ≤ 31 ∧ s ≤ 31 ∧ Literal.InRange i
  | .branch _ s t i => s ≤ 31 ∧ t ≤ 31 ∧ BranchOperand.InRange pc i
  | .mem _ t i s => t ≤ 31 ∧ s ≤ 31 ∧ Literal.InRange i
  | .word w => WordOperand.InRange w

/-- The state with another console input. -/
def State.withInput (s : State) (bytes : List Byte) : State :=
  { s with cfg := { s.cfg with consoleIn := bytes } }

/-- The next fetch succeeds: the pc is aligned and in bounds (20_memory.md R35). -/
def State.fetchable (s : State) : Prop := s.pc.toNat % 4 = 0 ∧ s.pc.toNat < s.cfg.memBytes

end Sys2Proof.Machine
end

