-- ==== Sys2Proof/Certificates/Slice0/Obligations.lean ====
section
/-! DEFINITION. The statements for the provers, from the numbered rules of the spec. Where a statement is about `exec`,
the state is the one the step hands to the instruction: its pc has been advanced (40_step.md R82). -/

open Sys2Proof Sys2Proof.Machine

/-! ## Encoding and decoding -/

/-- 30_encoding.md R57: the canonical word is the shift-and-or of the fields; decoding it gives the instruction back;
encoding what a word decodes to gives the word back exactly when its ignored fields are zero. -/
def Obligations.DecodeAndEncodeAgree : Prop :=
  (∀ i : Instr, encode i = canonicalWord i ∧ decode (encode i) = .ok i) ∧
    ∀ (w : Word) (i : Instr), decode w = .ok i →
      (encode i = w ↔ w &&& i.mnemonic.ignoredMask = 0#32)

/-- R60, R61: a word decodes to an instruction of a row exactly when it matches the row under the row's mask. -/
def Obligations.WordDecodesToItsMatchingRow : Prop :=
  ∀ (w : Word) (m : Mnemonic),
    (∃ i, decode w = .ok i ∧ i.mnemonic = m) ↔ w &&& m.decodeMask = m.matchWord

/-- R62: the illegal words, by opcode and funct. -/
def Obligations.IllegalWordsAreRejected : Prop :=
  ∀ w : Word, (∃ e, decode w = .error e) ↔
    (opcodeOf w = 0#6 ∧ functOf w ∉ [0x08#6, 0x09#6, 0x10#6, 0x12#6, 0x14#6, 0x18#6, 0x19#6, 0x1A#6, 0x1B#6, 0x20#6,
      0x22#6, 0x2A#6, 0x2B#6]) ∨
    opcodeOf w ∉ [0x00#6, 0x04#6, 0x05#6, 0x08#6, 0x23#6, 0x2B#6]

/-- R56: the decoder looks at opcode and funct in the R-format, at the opcode in the I-format, and at nothing else; words
that agree outside the fields an instruction ignores (`Mnemonic.ignoredMask`, the rule's table) decode to the same
instruction; and the rule's three examples. -/
def Obligations.IgnoredFieldsHaveNoEffect : Prop :=
  (∀ (w w' : Word) (m : Mnemonic), w &&& m.decodeMask = w' &&& m.decodeMask →
      ((∃ i, decode w = .ok i ∧ i.mnemonic = m) ↔ ∃ i, decode w' = .ok i ∧ i.mnemonic = m)) ∧
    (∀ (w w' : Word) (i : Instr), decode w = .ok i →
      w' &&& ~~~i.mnemonic.ignoredMask = w &&& ~~~i.mnemonic.ignoredMask → decode w' = .ok i) ∧
    decode 0x002218E0#32 = .ok (.add 3 1 2) ∧ decode 0x00222818#32 = .ok (.mult 1 2) ∧
    decode 0x00A0F809#32 = .ok (.jalr 5)

/-- 95_test_vectors.md T-L1-8: all twenty of the spec's canonical words, one or more a mnemonic, decode to the operands
shown. -/
def Obligations.SpecWordsDecodeToTheirInstructions : Prop :=
  decode 0x00221820#32 = .ok (.add 3 1 2) ∧ decode 0x00221822#32 = .ok (.sub 3 1 2) ∧
    decode 0x0022182A#32 = .ok (.slt 3 1 2) ∧ decode 0x0022182B#32 = .ok (.sltu 3 1 2) ∧
    decode 0x00220018#32 = .ok (.mult 1 2) ∧ decode 0x00220019#32 = .ok (.multu 1 2) ∧
    decode 0x0022001A#32 = .ok (.div 1 2) ∧ decode 0x0022001B#32 = .ok (.divu 1 2) ∧
    decode 0x00003810#32 = .ok (.mfhi 7) ∧ decode 0x00003012#32 = .ok (.mflo 6) ∧ decode 0x00000814#32 = .ok (.lis 1) ∧
    decode 0x03E00008#32 = .ok (.jr 31) ∧ decode 0x00A00009#32 = .ok (.jalr 5) ∧
    decode 0x2023FFFF#32 = .ok (.addi 3 1 (-1)) ∧ decode 0x10220003#32 = .ok (.beq 1 2 3) ∧
    decode 0x1422FFFD#32 = .ok (.bne 1 2 (-3)) ∧ decode 0x8C230008#32 = .ok (.lw 3 1 8) ∧
    decode 0xAC220008#32 = .ok (.sw 2 1 8) ∧ decode 0x03FFF820#32 = .ok (.add 31 31 31) ∧
    decode 0xAFDFFFFC#32 = .ok (.sw 31 30 (-4))

/-! ## Registers -/

/-- 10_state.md R12: register 0 reads as 0, a write to it changes nothing, for every instruction that can name a
destination the write alone is discarded, and the other effects of the instruction still happen: `lis $0` skips its
literal, `lw $0` consumes its input byte (the spec's own inference, "derived: from rule R12's first sentence"). -/
def Obligations.RegisterZeroIsHardwired : Prop :=
  (∀ s : State, s.readReg 0#5 = 0#32) ∧
    (∀ (s : State) (v : Word), s.writeReg 0#5 v = s) ∧
    (∀ (i : Instr) (s t : State), destRegs i = [0#5] → exec i s = .next t → SameRegsExcept [] s t) ∧
    (∀ s : State, s.fetchable → exec (.lis 0#5) s = .next { s with pc := s.pc + 4#32 }) ∧
    ∀ (s : State) (rs : RegNum) (imm : Half), effAddr (s.readReg rs) imm = s.cfg.stdinAddr →
      s.cfg.stdinAddr.toNat % 4 = 0 → s.inPos < s.cfg.consoleIn.length →
        exec (.lw 0#5 rs imm) s = .next { s with inPos := s.inPos + 1 }

/-- R13: an instruction changes no general register but those its row of the table writes, and register 31 for `jalr`.
That `jalr` writes register 31 is the spec's own, "from general knowledge, not in source" (R13, R118; log entry 9). -/
def Obligations.OnlyTheDestinationRegisterChanges : Prop :=
  ∀ (i : Instr) (s t : State), exec i s = .next t → SameRegsExcept (destRegs i) s t

/-! ## Arithmetic and comparison -/

/-- 41_alu.md R90. -/
def Obligations.AddWritesTheWrappedSum : Prop :=
  (∀ w : Word, w &&& 0xFC00003F#32 = 0x00000020#32 → decode w = .ok (.add (rdOf w) (rsOf w) (rtOf w))) ∧
    ∀ (rd rs rt : RegNum) (s : State),
      encode (.add rd rs rt) = wordR 0x20#32 rd rs rt ∧
      ∃ t, exec (.add rd rs rt) s = .next t ∧ OnlyReg rd s t ∧
        (t.readReg rd).toNat =
          if rd = 0#5 then 0 else ((s.readReg rs).toNat + (s.readReg rt).toNat) % 2 ^ 32

/-- R91: `rs` minus `rt`. That is the spec's own reading of the name, "from general knowledge, not in source" (log entry 9). -/
def Obligations.SubWritesTheWrappedDifference : Prop :=
  (∀ w : Word, w &&& 0xFC00003F#32 = 0x00000022#32 → decode w = .ok (.sub (rdOf w) (rsOf w) (rtOf w))) ∧
    ∀ (rd rs rt : RegNum) (s : State),
      encode (.sub rd rs rt) = wordR 0x22#32 rd rs rt ∧
      ∃ t, exec (.sub rd rs rt) s = .next t ∧ OnlyReg rd s t ∧
        ((t.readReg rd).toNat : Int) =
          if rd = 0#5 then 0 else (((s.readReg rs).toNat : Int) - ((s.readReg rt).toNat : Int)) % 2 ^ 32

/-- R92: the exact two's-complement integers are compared. The operation is the spec's own reading of the name,
"from general knowledge, not in source" (log entry 9). -/
def Obligations.SltComparesSigned : Prop :=
  (∀ w : Word, w &&& 0xFC00003F#32 = 0x0000002A#32 → decode w = .ok (.slt (rdOf w) (rsOf w) (rtOf w))) ∧
    ∀ (rd rs rt : RegNum) (s : State),
      encode (.slt rd rs rt) = wordR 0x2A#32 rd rs rt ∧
      ∃ t, exec (.slt rd rs rt) s = .next t ∧ OnlyReg rd s t ∧
        t.readReg rd =
          if rd = 0#5 then 0#32 else if (s.readReg rs).toInt < (s.readReg rt).toInt then 1#32 else 0#32

/-- R93: the unsigned integers are compared. The operation is the spec's own reading of the name,
"from general knowledge, not in source" (log entry 9). -/
def Obligations.SltuComparesUnsigned : Prop :=
  (∀ w : Word, w &&& 0xFC00003F#32 = 0x0000002B#32 → decode w = .ok (.sltu (rdOf w) (rsOf w) (rtOf w))) ∧
    ∀ (rd rs rt : RegNum) (s : State),
      encode (.sltu rd rs rt) = wordR 0x2B#32 rd rs rt ∧
      ∃ t, exec (.sltu rd rs rt) s = .next t ∧ OnlyReg rd s t ∧
        t.readReg rd =
          if rd = 0#5 then 0#32 else if (s.readReg rs).toNat < (s.readReg rt).toNat then 1#32 else 0#32

/-- R94: the immediate is added as a signed number. -/
def Obligations.AddiAddsTheSignedImmediate : Prop :=
  (∀ w : Word, w &&& 0xFC000000#32 = 0x20000000#32 → decode w = .ok (.addi (rtOf w) (rsOf w) (immOf w))) ∧
    ∀ (rt rs : RegNum) (imm : Half) (s : State),
      encode (.addi rt rs imm) = wordI 0x08#32 rs rt imm ∧
      ∃ t, exec (.addi rt rs imm) s = .next t ∧ OnlyReg rt s t ∧
        ((t.readReg rt).toNat : Int) =
          if rt = 0#5 then 0 else (((s.readReg rs).toNat : Int) + imm.toInt) % 2 ^ 32

/-- R95: the five run in every state, write one register and nothing else, raise nothing, and have no effect at all when
the destination is register 0; sums and differences are the same for signed and unsigned readings. That overflow does
not trap is the spec's own inference, "derived: from §7's closed list of execution-time errors". -/
def Obligations.ArithmeticNeverTraps : Prop :=
  (∀ (i : Instr) (r : RegNum) (s : State), i.mnemonic ∈ [.add, .sub, .slt, .sltu, .addi] → destRegs i = [r] →
      ∃ t, exec i s = .next t ∧ OnlyReg r s t ∧ (r = 0#5 → t = s)) ∧
    ∀ (rd rs rt : RegNum) (imm : Half) (s : State), rd ≠ 0#5 →
      (∀ t, exec (.add rd rs rt) s = .next t →
        ((t.readReg rd).toInt - ((s.readReg rs).toInt + (s.readReg rt).toInt)) % 2 ^ 32 = 0) ∧
      (∀ t, exec (.sub rd rs rt) s = .next t →
        ((t.readReg rd).toInt - ((s.readReg rs).toInt - (s.readReg rt).toInt)) % 2 ^ 32 = 0) ∧
      ∀ t, exec (.addi rd rs imm) s = .next t →
        ((t.readReg rd).toInt - ((s.readReg rs).toInt + imm.toInt)) % 2 ^ 32 = 0

/-! ## Multiply, divide, and the moves -/

/-- 42_muldiv.md R100: HI and LO together are the exact signed product. That `mult` reads its operands as signed is the
spec's own, "from general knowledge, not in source" (log entry 9). -/
def Obligations.MultLeavesTheSignedProduct : Prop :=
  (∀ w : Word, w &&& 0xFC00003F#32 = 0x00000018#32 → decode w = .ok (.mult (rsOf w) (rtOf w))) ∧
    ∀ (rs rt : RegNum) (s : State),
      encode (.mult rs rt) = wordR 0x18#32 0#5 rs rt ∧
      ∃ t, exec (.mult rs rt) s = .next t ∧ OnlyHiLo s t ∧
        (t.hi ++ t.lo).toInt = (s.readReg rs).toInt * (s.readReg rt).toInt

/-- R101: HI and LO together are the exact unsigned product. That `multu` reads its operands as unsigned is the spec's
own, "from general knowledge, not in source" (log entry 9). -/
def Obligations.MultuLeavesTheUnsignedProduct : Prop :=
  (∀ w : Word, w &&& 0xFC00003F#32 = 0x00000019#32 → decode w = .ok (.multu (rsOf w) (rtOf w))) ∧
    ∀ (rs rt : RegNum) (s : State),
      encode (.multu rs rt) = wordR 0x19#32 0#5 rs rt ∧
      ∃ t, exec (.multu rs rt) s = .next t ∧ OnlyHiLo s t ∧
        t.hi.toNat * 2 ^ 32 + t.lo.toNat = (s.readReg rs).toNat * (s.readReg rt).toNat

/-- R102: by zero both are 0; the one overflow leaves the parameter `DIV_OVF`, whatever its value; else LO is the quotient
rounded toward zero and HI the remainder, so that `a = b * q + r` with `|r| < |b|`. Which of HI and LO takes the
quotient, and the rounding, are the spec's own, "from general knowledge, not in source" (log entry 9). -/
def Obligations.DivLeavesQuotientAndRemainder : Prop :=
  (∀ w : Word, w &&& 0xFC00003F#32 = 0x0000001A#32 → decode w = .ok (.div (rsOf w) (rtOf w))) ∧
    ∀ (rs rt : RegNum) (s : State) (a b : Int), (s.readReg rs).toInt = a → (s.readReg rt).toInt = b →
      encode (.div rs rt) = wordR 0x1A#32 0#5 rs rt ∧
      ∃ t, exec (.div rs rt) s = .next t ∧ OnlyHiLo s t ∧
        if b = 0 then t.hi = 0#32 ∧ t.lo = 0#32
        else if a = -2 ^ 31 ∧ b = -1 then t.hi = s.cfg.divOvf.hi ∧ t.lo = s.cfg.divOvf.lo
        else t.lo.toInt = a.tdiv b ∧ t.hi.toInt = a.tmod b ∧ a = b * t.lo.toInt + t.hi.toInt ∧
          t.hi.toInt.natAbs < b.natAbs

/-- R103: by zero both are 0; else LO is the quotient and HI the remainder. The unsigned reading and the place of the
quotient are the spec's own, "from general knowledge, not in source" (log entry 9). -/
def Obligations.DivuLeavesQuotientAndRemainder : Prop :=
  (∀ w : Word, w &&& 0xFC00003F#32 = 0x0000001B#32 → decode w = .ok (.divu (rsOf w) (rtOf w))) ∧
    ∀ (rs rt : RegNum) (s : State) (a b : Nat), (s.readReg rs).toNat = a → (s.readReg rt).toNat = b →
      encode (.divu rs rt) = wordR 0x1B#32 0#5 rs rt ∧
      ∃ t, exec (.divu rs rt) s = .next t ∧ OnlyHiLo s t ∧
        if b = 0 then t.hi = 0#32 ∧ t.lo = 0#32
        else t.lo.toNat = a / b ∧ t.hi.toNat = a % b ∧ t.hi.toNat < b

/-- R104, R105: the moves copy HI and LO to the destination and change neither. The operation is the spec's own,
"from general knowledge, not in source" (log entry 9). -/
def Obligations.MovesCopyHiAndLo : Prop :=
  (∀ w : Word, w &&& 0xFC00003F#32 = 0x00000010#32 → decode w = .ok (.mfhi (rdOf w))) ∧
    (∀ w : Word, w &&& 0xFC00003F#32 = 0x00000012#32 → decode w = .ok (.mflo (rdOf w))) ∧
    ∀ (rd : RegNum) (s : State),
      encode (.mfhi rd) = wordR 0x10#32 rd 0#5 0#5 ∧ encode (.mflo rd) = wordR 0x12#32 rd 0#5 0#5 ∧
      (∃ t, exec (.mfhi rd) s = .next t ∧ OnlyReg rd s t ∧ t.readReg rd = if rd = 0#5 then 0#32 else s.hi) ∧
      ∃ t, exec (.mflo rd) s = .next t ∧ OnlyReg rd s t ∧ t.readReg rd = if rd = 0#5 then 0#32 else s.lo

/-- 10_state.md R14, R106: no other instruction writes HI or LO. -/
def Obligations.OnlyMultiplyAndDivideWriteHiLo : Prop :=
  ∀ (i : Instr) (s t : State), exec i s = .next t → ¬SameHiLo s t → i.mnemonic ∈ [.mult, .multu, .div, .divu]

/-! ## lis -/

/-- 43_lis.md R110: the literal at the advanced pc is loaded and skipped, for register 0 only skipped; a literal that
cannot be read halts the core with the destination unwritten and the pc at the literal. -/
def Obligations.LisLoadsItsLiteralAndSkipsIt : Prop :=
  (∀ w : Word, w &&& 0xFC00003F#32 = 0x00000014#32 → decode w = .ok (.lis (rdOf w))) ∧
    ∀ (rd : RegNum) (s : State),
      encode (.lis rd) = wordR 0x14#32 rd 0#5 0#5 ∧
      (s.fetchable → ∃ t, exec (.lis rd) s = .next t ∧ OnlyPcAndRegs [rd] s t ∧
        t.readReg rd = (if rd = 0#5 then 0#32 else s.wordAt s.pc.toNat) ∧
        t.pc.toNat = (s.pc.toNat + 4) % 2 ^ 32) ∧
      (s.pc.toNat % 4 ≠ 0 → ∃ t, exec (.lis rd) s = .next t ∧
        HaltedWith (.memoryFault .unaligned) s.pc s t ∧ SameProgramState s t) ∧
      (s.pc.toNat % 4 = 0 → s.cfg.memBytes ≤ s.pc.toNat → ∃ t, exec (.lis rd) s = .next t ∧
        HaltedWith (.memoryFault .outOfBounds) s.pc s t ∧ SameProgramState s t)

/-! ## Control transfer -/

/-- 44_control.md R115: taken when all 32 bits are equal; the target counts words from the advanced pc. The condition is
the spec's own, "from general knowledge, not in source" (log entry 9). -/
def Obligations.BeqBranchesWhenEqual : Prop :=
  (∀ w : Word, w &&& 0xFC000000#32 = 0x10000000#32 → decode w = .ok (.beq (rsOf w) (rtOf w) (immOf w))) ∧
    ∀ (rs rt : RegNum) (imm : Half) (s : State),
      encode (.beq rs rt imm) = wordI 0x04#32 rs rt imm ∧
      ∃ t, exec (.beq rs rt imm) s = .next t ∧ OnlyPcAndRegs [] s t ∧
        (t.pc.toNat : Int) =
          if s.readReg rs = s.readReg rt then ((s.pc.toNat : Int) + 4 * imm.toInt) % 2 ^ 32
          else (s.pc.toNat : Int)

/-- R116: taken when the registers differ. The condition is the spec's own, "from general knowledge, not in source" (log entry 9). -/
def Obligations.BneBranchesWhenNotEqual : Prop :=
  (∀ w : Word, w &&& 0xFC000000#32 = 0x14000000#32 → decode w = .ok (.bne (rsOf w) (rtOf w) (immOf w))) ∧
    ∀ (rs rt : RegNum) (imm : Half) (s : State),
      encode (.bne rs rt imm) = wordI 0x05#32 rs rt imm ∧
      ∃ t, exec (.bne rs rt imm) s = .next t ∧ OnlyPcAndRegs [] s t ∧
        (t.pc.toNat : Int) =
          if s.readReg rs = s.readReg rt then (s.pc.toNat : Int)
          else ((s.pc.toNat : Int) + 4 * imm.toInt) % 2 ^ 32

/-- R117: the register's value as it is, unmasked and unchecked. That the new pc is the register's content is the spec's
own, "from general knowledge, not in source" (log entry 9). -/
def Obligations.JrJumpsToTheRegister : Prop :=
  (∀ w : Word, w &&& 0xFC00003F#32 = 0x00000008#32 → decode w = .ok (.jr (rsOf w))) ∧
    ∀ (rs : RegNum) (s : State),
      encode (.jr rs) = wordR 0x08#32 0#5 rs 0#5 ∧
      ∃ t, exec (.jr rs) s = .next t ∧ OnlyPcAndRegs [] s t ∧ t.pc = s.readReg rs

/-- R118: the old value of the register is the target, the advanced pc the link, in register 31 always. That it links,
where, and with what, are the spec's own, "from general knowledge, not in source" (log entry 9). -/
def Obligations.JalrLinksAndJumps : Prop :=
  (∀ w : Word, w &&& 0xFC00003F#32 = 0x00000009#32 → decode w = .ok (.jalr (rsOf w))) ∧
    ∀ (rs : RegNum) (s : State),
      encode (.jalr rs) = wordR 0x09#32 0#5 rs 0#5 ∧
      ∃ t, exec (.jalr rs) s = .next t ∧ OnlyPcAndRegs [31#5] s t ∧ t.readReg 31#5 = s.pc ∧
        t.pc = s.readReg rs

/-- 10_state.md R15, R16: no other instruction writes the pc beyond the step's advance. -/
def Obligations.OnlyControlTransfersAndLisWriteThePc : Prop :=
  ∀ (i : Instr) (s t : State), exec i s = .next t → t.pc ≠ s.pc →
    i.mnemonic ∈ [.lis, .jr, .jalr, .beq, .bne]

/-- 20_memory.md R40: from an aligned pc only `jr` and `jalr` can leave an unaligned one. -/
def Obligations.OnlyRegisterJumpsMisalignThePc : Prop :=
  ∀ (s t : State) (i : Instr), s.pc.toNat % 4 = 0 → exec i s = .next t → t.pc.toNat % 4 ≠ 0 →
    i.mnemonic ∈ [.jr, .jalr]

/-- 44_control.md R120: no control transfer faults; `jr` and `jalr` write the register's value to the pc whatever it is,
`jalr` its link with it; only these two can misalign the pc; and a pc that no fetch can read halts the core in the next
cycle with the pc holding it, unless a stop request arrives first, which halts the core with `Stop`. What the four test
and write is the spec's own, "from general knowledge, not in source" (R115 to R118). -/
def Obligations.BadTargetsFaultAtTheNextFetch : Prop :=
  ∀ (i : Instr) (s : State), i.mnemonic ∈ [.beq, .bne, .jr, .jalr] →
    ∃ t, exec i s = .next t ∧ SameEngine s t ∧
      (∀ rs, i = .jr rs ∨ i = .jalr rs → t.pc = s.readReg rs) ∧
      (∀ rs, i = .jalr rs → t.readReg 31#5 = s.pc) ∧
      (i.mnemonic ∈ [.beq, .bne] → s.pc.toNat % 4 = 0 → t.pc.toNat % 4 = 0) ∧
      (s.runState = .running → s.stopFlag = false → ¬t.fetchable →
        (∃ u, hostCycle false t = .next u ∧ SameProgramState t u ∧
          HaltedWith (.memoryFault (if t.pc.toNat % 4 = 0 then .outOfBounds else .unaligned)) t.pc t u) ∧
        ∃ u, hostCycle true t = .next u ∧ SameProgramState t u ∧ u.runState = .halted ∧ u.haltCause = .stop ∧
          u.haltInfo = 0#32)

/-! ## Loads and stores -/

/-- 45_loadstore.md R126 with 20_memory.md R33 and R36, one clause a case. That the address is the base plus the
sign-extended immediate is the spec's own, "from general knowledge, not in source" (the file's opening; log entry 9). -/
def Obligations.LwLoadsAWordOrAnInputByteOrHalts : Prop :=
  (∀ w : Word, w &&& 0xFC000000#32 = 0x8C000000#32 → decode w = .ok (.lw (rtOf w) (rsOf w) (immOf w))) ∧
    ∀ (rt rs : RegNum) (imm : Half) (s : State) (ea : Word), ea = effAddr (s.readReg rs) imm →
      encode (.lw rt rs imm) = wordI 0x23#32 rs rt imm ∧
      (ea.toNat : Int) = (((s.readReg rs).toNat : Int) + imm.toInt) % 2 ^ 32 ∧
      (ea.toNat % 4 = 0 → ea ≠ s.cfg.stdinAddr → ea.toNat < s.cfg.memBytes →
        ∃ t, exec (.lw rt rs imm) s = .next t ∧ OnlyReg rt s t ∧
          t.readReg rt = if rt = 0#5 then 0#32 else s.wordAt ea.toNat) ∧
      (∀ b : Byte, ea.toNat % 4 = 0 → ea = s.cfg.stdinAddr → s.cfg.consoleIn[s.inPos]? = some b →
        ∃ t, exec (.lw rt rs imm) s = .next t ∧ SameRegsExcept [rt] s t ∧ SameHiLo s t ∧ t.pc = s.pc ∧
          SameMemory s t ∧ t.inPos = s.inPos + 1 ∧ t.out = s.out ∧ SameEngine s t ∧ t.cfg = s.cfg ∧
          (t.readReg rt).toNat =
            if rt = 0#5 then 0 else if b.toNat < 0x80 then b.toNat else 0xFFFFFF00 + b.toNat) ∧
      (ea.toNat % 4 = 0 → ea = s.cfg.stdinAddr → s.cfg.consoleIn.length ≤ s.inPos →
        ∃ t, exec (.lw rt rs imm) s = .next t ∧ OnlyReg rt s t ∧
          t.readReg rt = if rt = 0#5 then 0#32 else 0xFFFFFFFF#32) ∧
      (ea.toNat % 4 ≠ 0 → ∃ t, exec (.lw rt rs imm) s = .next t ∧
        HaltedWith (.memoryFault .unaligned) ea s t ∧ SameProgramState s t) ∧
      (ea.toNat % 4 = 0 → ea ≠ s.cfg.stdinAddr → s.cfg.memBytes ≤ ea.toNat →
        ∃ t, exec (.lw rt rs imm) s = .next t ∧
          HaltedWith (.memoryFault .outOfBounds) ea s t ∧ SameProgramState s t)

/-- 45_loadstore.md R127 with 20_memory.md R34 and R37, one clause a case. That the address is the base plus the
sign-extended immediate is the spec's own, "from general knowledge, not in source" (the file's opening; log entry 9). -/
def Obligations.SwStoresAWordOrOutputsAByteOrHalts : Prop :=
  (∀ w : Word, w &&& 0xFC000000#32 = 0xAC000000#32 → decode w = .ok (.sw (rtOf w) (rsOf w) (immOf w))) ∧
    ∀ (rt rs : RegNum) (imm : Half) (s : State) (ea : Word), ea = effAddr (s.readReg rs) imm →
      encode (.sw rt rs imm) = wordI 0x2B#32 rs rt imm ∧
      (ea.toNat : Int) = (((s.readReg rs).toNat : Int) + imm.toInt) % 2 ^ 32 ∧
      (ea.toNat % 4 = 0 → ea ≠ s.cfg.stdoutAddr → ea.toNat < s.cfg.memBytes →
        ∃ t, exec (.sw rt rs imm) s = .next t ∧ t.wordAt ea.toNat = s.readReg rt ∧
          SameMemoryExceptWord ea.toNat s t ∧ SameRegsExcept [] s t ∧ SameHiLo s t ∧ t.pc = s.pc ∧
          SameConsole s t ∧ SameEngine s t ∧ t.cfg = s.cfg) ∧
      (ea.toNat % 4 = 0 → ea = s.cfg.stdoutAddr →
        ∃ t, exec (.sw rt rs imm) s = .next t ∧ t.out = s.out ++ [BitVec.ofNat 8 ((s.readReg rt).toNat % 256)] ∧
          SameMemory s t ∧ SameRegsExcept [] s t ∧ SameHiLo s t ∧ t.pc = s.pc ∧ t.inPos = s.inPos ∧
          SameEngine s t ∧ t.cfg = s.cfg) ∧
      (ea.toNat % 4 ≠ 0 → ∃ t, exec (.sw rt rs imm) s = .next t ∧
        HaltedWith (.memoryFault .unaligned) ea s t ∧ SameProgramState s t) ∧
      (ea.toNat % 4 = 0 → ea ≠ s.cfg.stdoutAddr → s.cfg.memBytes ≤ ea.toNat →
        ∃ t, exec (.sw rt rs imm) s = .next t ∧
          HaltedWith (.memoryFault .outOfBounds) ea s t ∧ SameProgramState s t)

/-- A byte of memory changes only where a `sw` stores: within the word at its effective address, which is aligned, in
bounds and not the output port (R127; 10_state.md R13). -/
def Obligations.OnlyStoreWordChangesMemory : Prop :=
  ∀ (i : Instr) (s t : State) (a : Nat), exec i s = .next t → t.byteAt a ≠ s.byteAt a →
    ∃ rt rs imm, i = .sw rt rs imm ∧ (effAddr (s.readReg rs) imm).toNat ≤ a ∧
      a < (effAddr (s.readReg rs) imm).toNat + 4 ∧ (effAddr (s.readReg rs) imm).toNat % 4 = 0 ∧
      (effAddr (s.readReg rs) imm).toNat < s.cfg.memBytes ∧ effAddr (s.readReg rs) imm ≠ s.cfg.stdoutAddr

/-- 20_memory.md R44: a load returns the value of the latest earlier store to the same word, with any instruction that is
not a store between the two; ports left aside. -/
def Obligations.LoadReturnsTheLatestStore : Prop :=
  ∀ (rt rs rt' rs' : RegNum) (imm imm' : Half) (i : Instr) (s t u : State) (ea : Word),
    effAddr (s.readReg rs) imm = ea → ea.toNat % 4 = 0 → ea.toNat < s.cfg.memBytes →
    ea ≠ s.cfg.stdinAddr → ea ≠ s.cfg.stdoutAddr → i.mnemonic ≠ .sw →
    exec (.sw rt rs imm) s = .next t → exec i t = .next u → effAddr (u.readReg rs') imm' = ea →
      ∃ v, exec (.lw rt' rs' imm') u = .next v ∧ (rt' ≠ 0#5 → v.readReg rt' = s.readReg rt)

/-- 20_memory.md R47: the fetch after a store reads the stored word where it was stored, and the old words elsewhere. -/
def Obligations.StoresAreSeenByTheNextFetch : Prop :=
  ∀ (rt rs : RegNum) (imm : Half) (s t : State) (ea a : Word),
    effAddr (s.readReg rs) imm = ea → ea.toNat % 4 = 0 → ea.toNat < s.cfg.memBytes → ea ≠ s.cfg.stdoutAddr →
    exec (.sw rt rs imm) s = .next t → a.toNat % 4 = 0 →
      t.fetchWord a = if a = ea then .ok (s.readReg rt) else s.fetchWord a

/-- 10_state.md R22: a step leaves the input position or moves it on by one, and moves it only for a load from
`STDIN_ADDR` with input left. -/
def Obligations.InputIsConsumedOneByteALoad : Prop :=
  ∀ (i : Instr) (s t : State), exec i s = .next t → t.inPos ≠ s.inPos →
    t.inPos = s.inPos + 1 ∧ s.inPos < s.cfg.consoleIn.length ∧
      ∃ rt rs imm, i = .lw rt rs imm ∧ effAddr (s.readReg rs) imm = s.cfg.stdinAddr

/-- 10_state.md R23: the output only grows, by the low byte that a `sw` stores to `STDOUT_ADDR`. -/
def Obligations.OutputOnlyGrows : Prop :=
  ∀ (i : Instr) (s t : State), exec i s = .next t → t.out ≠ s.out →
    ∃ rt rs imm, i = .sw rt rs imm ∧ effAddr (s.readReg rs) imm = s.cfg.stdoutAddr ∧
      t.out = s.out ++ [(s.readReg rt).setWidth 8]

/-- 10_state.md R22: a program observes the input only through the values its loads return. An instruction that is not
`lw` does the same whatever `CONSOLE_IN` is. -/
def Obligations.OnlyLoadsLearnTheInput : Prop :=
  ∀ (i : Instr) (s t : State) (bytes : List Byte), i.mnemonic ≠ .lw → exec i s = .next t →
    exec i (s.withInput bytes) = .next (t.withInput bytes)

/-- 20_memory.md R39: memories in canonical form that read the same everywhere are the same data. The canonical form is
the model's choice (log entry 7). -/
def Obligations.MemoriesThatReadTheSameAreEqual : Prop :=
  ∀ (fill : Word) (m m' : Memory), Memory.wf fill m = true → Memory.wf fill m' = true →
    (∀ a, m.readByte fill a = m'.readByte fill a) → m = m'

/-! ## The cycle, faults and the halt -/

/-- 40_step.md R81, R82: where the word at the pc decodes, the step is the instruction's execution with the pc advanced
by 4, modulo 2^32, and nothing else around it. -/
def Obligations.StepRunsTheDecodedInstruction : Prop :=
  ∀ (s : State) (i : Instr), s.runState = .running → s.stopFlag = false → s.fetchable →
    decode (s.wordAt s.pc.toNat) = .ok i → step s = exec i { s with pc := s.pc + 4#32 }

/-- 60_exceptions.md R138, R140: a fetch that fails halts the core with the pc unchanged and nothing else written,
unaligned before out of bounds. -/
def Obligations.FetchFaultsLeaveThePc : Prop :=
  ∀ s : State, s.runState = .running → s.stopFlag = false →
    (s.pc.toNat % 4 ≠ 0 → ∃ t, step s = .next t ∧ HaltedWith (.memoryFault .unaligned) s.pc s t ∧
      SameProgramState s t) ∧
    (s.pc.toNat % 4 = 0 → s.cfg.memBytes ≤ s.pc.toNat → ∃ t, step s = .next t ∧
      HaltedWith (.memoryFault .outOfBounds) s.pc s t ∧ SameProgramState s t)

/-- 60_exceptions.md R133: a word that is none of the 18 instructions halts the core with that word recorded and the pc
at the word's address plus 4, nothing else written. -/
def Obligations.UndecodableWordsHaltTheCore : Prop :=
  ∀ (s : State) (e : DecodeReject), s.runState = .running → s.stopFlag = false → s.fetchable →
    decode (s.wordAt s.pc.toNat) = .error e →
      ∃ t, step s = .next t ∧ HaltedWith .decodeError (s.wordAt s.pc.toNat) s t ∧
        t.pc = s.pc + 4#32 ∧ SameRegsExcept [] s t ∧ SameHiLo s t ∧ SameMemory s t ∧ SameConsole s t ∧
        t.cfg = s.cfg

/-- 60_exceptions.md R140: whatever fault ends a step, nothing but the pc and the halt record has changed; the pc is the
instruction's address for a fetch fault and that plus 4 for every other; and the halt record says what was at fault: the
pc, the word that did not decode, or the address that `lis`, `lw` or `sw` could not reach. -/
def Obligations.FaultsArePrecise : Prop :=
  ∀ s t : State, s.runState = .running → s.stopFlag = false → step s = .next t → t.runState = .halted →
    SameRegsExcept [] s t ∧ SameHiLo s t ∧ SameMemory s t ∧ SameConsole s t ∧ t.stopFlag = s.stopFlag ∧
      t.cfg = s.cfg ∧
      (¬s.fetchable → t.pc = s.pc ∧ t.haltInfo = s.pc ∧
        t.haltCause = .memoryFault (if s.pc.toNat % 4 = 0 then .outOfBounds else .unaligned)) ∧
      (s.fetchable → t.pc = s.pc + 4#32 ∧
        ((∃ e, decode (s.wordAt s.pc.toNat) = .error e ∧ t.haltCause = .decodeError ∧
            t.haltInfo = s.wordAt s.pc.toNat) ∨
          ∃ i a, decode (s.wordAt s.pc.toNat) = .ok i ∧ t.haltInfo = a ∧
            t.haltCause = .memoryFault (if a.toNat % 4 = 0 then .outOfBounds else .unaligned) ∧
            ((∃ rd, i = .lis rd ∧ a = s.pc + 4#32) ∨
              ∃ rt rs imm, (i = .lw rt rs imm ∨ i = .sw rt rs imm) ∧ a = effAddr (s.readReg rs) imm)))

/-- 60_exceptions.md R130: an instruction either leaves the engine's state alone or is a `lis`, `lw` or `sw` that
raises a memory fault: no other event stops an instruction. -/
def Obligations.OnlyMemoryAccessesFaultInExecution : Prop :=
  ∀ (i : Instr) (s t : State), exec i s = .next t →
    SameEngine s t ∨ (i.mnemonic ∈ [.lis, .lw, .sw] ∧ t.runState = .halted ∧ t.stopFlag = s.stopFlag ∧
      ((t.haltCause = .memoryFault .unaligned ∧ t.haltInfo.toNat % 4 ≠ 0) ∨
        (t.haltCause = .memoryFault .outOfBounds ∧ t.haltInfo.toNat % 4 = 0 ∧
          s.cfg.memBytes ≤ t.haltInfo.toNat)))

/-- 40_step.md R80, 10_state.md R19: a stop request halts the core at the next cycle's top with nothing fetched, whatever
the instruction at the pc would have done. -/
def Obligations.StopRequestHaltsBeforeTheFetch : Prop :=
  ∀ s : State, s.runState = .running →
    (∃ t, hostCycle true s = .next t ∧ t.runState = .halted ∧ t.stopFlag = true ∧ t.haltCause = .stop ∧
      t.haltInfo = 0#32 ∧ SameProgramState s t) ∧
    (s.stopFlag = true → ∀ stop : Bool, ∃ t, hostCycle stop s = .next t ∧ HaltedWith .stop 0#32 s t ∧
      SameProgramState s t)

/-- 10_state.md R18, 60_exceptions.md R141: no cycle, and no stop request, changes anything in a halted core. That a stop
request after the halt leaves even the flag alone is deduced from R141 (log entry 12). -/
def Obligations.HaltedIsTerminal : Prop :=
  ∀ s : State, s.runState = .halted →
    s.requestStop = s ∧ (∀ n : Nat, Sys2Proof.core.run n s = .next s) ∧ ∀ stops : List Bool, runSchedule stops s = .next s

/-- 10_state.md R20: `halt_cause` changes only at the transition from `Running` to `Halted`, and the transition writes
a cause that is not `None`. -/
def Obligations.HaltCauseIsWrittenOnceAtTheHalt : Prop :=
  ∀ s t : State, step s = .next t →
    (t.haltCause ≠ s.haltCause → s.runState = .running ∧ t.runState = .halted) ∧
    (s.runState = .running → t.runState = .halted → t.haltCause ≠ .none)

/-- 93_implementation_defined.md U16, 40_step.md R86: the core is never stuck, every state has exactly one successor per
cycle, for every choice of the host. -/
def Obligations.EveryStateHasASuccessor : Prop :=
  ∀ s : State, (∃ t, step s = .next t) ∧ ∀ stops : List Bool, ∃ t, runSchedule stops s = .next t

/-- 10_state.md R10, R19: no step changes the parameters, the input sequence or the stop flag. -/
def Obligations.StepsKeepParametersAndStopFlag : Prop :=
  ∀ s t : State, step s = .next t → t.cfg = s.cfg ∧ t.stopFlag = s.stopFlag

/-- 40_step.md R85: with no stop request the host's run is repeated cycles and adds nothing. -/
def Obligations.RunWithoutStopIsRepeatedCycles : Prop :=
  ∀ (n : Nat) (s : State), runSchedule (List.replicate n false) s = Sys2Proof.core.run n s

/-- Every step keeps the invariant: admissible parameters, canonical memory within `MEM_BYTES`, the input position within
the input, and a halt record that says what 10_state.md R20 and 60_exceptions.md R130 say. -/
def Obligations.EveryStepKeepsTheInvariant : Prop :=
  ∀ s t : State, s.Inv → step s = .next t → t.Inv

/-! ## Reset and loading -/

/-- 10_state.md R28, 70_reset_and_hazards.md R160: what reset leaves, for every choice of the parameters and every image. -/
def Obligations.ResetLeavesTheSpecifiedState : Prop :=
  ∀ (c : Config) (r : RegInit) (image : List Word),
    (c.memBytes < 4 * image.length → State.powerOn c r image = .error .imageTooLong) ∧
    (4 * image.length ≤ c.memBytes → ∃ s, State.powerOn c r image = .ok s ∧
      s.readReg 0#5 = 0#32 ∧ (∀ k : Fin 31, s.readReg (BitVec.ofNat 5 (k.val + 1)) = r.gpr[k]) ∧
      s.hi = r.hi ∧ s.lo = r.lo ∧ s.pc = 0#32 ∧
      (∀ k w, image[k]? = some w → s.wordAt (4 * k) = w) ∧
      (∀ k, image.length ≤ k → s.wordAt (4 * k) = c.memFill) ∧
      s.runState = .running ∧ s.stopFlag = false ∧ s.haltCause = .none ∧ s.haltInfo = 0#32 ∧
      s.inPos = 0 ∧ s.out = [] ∧ s.cfg = c)

/-- 20_memory.md R39, 70_reset_and_hazards.md R161: an image held as bytes is read four bytes a word, the first most
significant, and refused when its length is no multiple of 4. -/
def Obligations.ImageBytesAreBigEndianWords : Prop :=
  ∀ bytes : List Byte,
    (bytes.length % 4 ≠ 0 → imageOfBytes bytes = .error .imageNotWords) ∧
    (bytes.length % 4 = 0 → ∃ ws, imageOfBytes bytes = .ok ws ∧ 4 * ws.length = bytes.length ∧
      ∀ (k : Nat) (b0 b1 b2 b3 : Byte), bytes[4 * k]? = some b0 → bytes[4 * k + 1]? = some b1 →
        bytes[4 * k + 2]? = some b2 → bytes[4 * k + 3]? = some b3 → ws[k]? = some (b0 ++ b1 ++ b2 ++ b3))

/-- Reset with admissible parameters and an image that fits meets the invariant. -/
def Obligations.PowerOnMeetsTheInvariant : Prop :=
  ∀ (c : Config) (r : RegInit) (image : List Word) (s : State), c.wellFormed = true →
    State.powerOn c r image = .ok s → s.Inv

/-- The model's reset state meets the invariant; it is the reset with the model's default parameters and an empty image
(the model's choice where the spec leaves a value open: log entries 2 to 6, 26). -/
def Obligations.ResetStateMeetsTheInvariant : Prop :=
  State.reset.Inv ∧ State.powerOn Config.default RegInit.zero [] = .ok State.reset

/-! ## Written operands -/

/-- 30_encoding.md R66 to R68, R70, R71: a line has a word exactly when its check accepts it, and exactly when its
operands lie in the ranges the rules write, spelled out in `AsmLine.InRange`. That a label must be a whole number of words
away is none of these rules but the model's choice (log entry 20). -/
def Obligations.LinesAssembleExactlyWhenInRange : Prop :=
  ∀ (pc : Nat) (l : AsmLine),
    ((∃ w, assemble pc l = .ok w) ↔ l.wellFormed pc = true) ∧ ((∃ w, assemble pc l = .ok w) ↔ AsmLine.InRange pc l)

/-- 30_encoding.md R66, R68: a written immediate lands in the field as its 16 bits, and `addi` then adds its signed value:
a decimal as it is, a hexadecimal from 0x8000 up as a negative number (R58). -/
def Obligations.WrittenImmediatesReachTheirInstruction : Prop :=
  ∀ (pc t s : Nat) (i : Literal) (w : Word), assemble pc (.addi t s i) = .ok w →
    ∃ imm : Half, decode w = .ok (.addi (BitVec.ofNat 5 t) (BitVec.ofNat 5 s) imm) ∧ t ≤ 31 ∧ s ≤ 31 ∧
      (∀ n : Int, i = .dec n → imm.toInt = n) ∧
      ∀ n : Nat, i = .hex n → imm.toNat = n ∧ (0x8000 ≤ n → imm.toInt = (n : Int) - 0x10000)

/-- 30_encoding.md R70: a branch written to a label, fetched at its own address, goes to the label when taken. A
label whose distance is no multiple of 4 has no word, by the model's choice (log entry 20). -/
def Obligations.BranchesToLabelsReachThem : Prop :=
  ∀ (pc s t addr : Nat) (op : BranchOp) (w : Word), pc < 2 ^ 32 → addr < 2 ^ 32 →
    assemble pc (.branch op s t (.label addr)) = .ok w →
      ∃ imm : Half, decode w = .ok (op.instr (BitVec.ofNat 5 s) (BitVec.ofNat 5 t) imm) ∧
        imm.toInt * 4 = (addr : Int) - ((pc : Int) + 4) ∧
        branchTarget (BitVec.ofNat 32 pc + 4#32) imm = BitVec.ofNat 32 addr
end

