-- ==== Sys2Proof/Laws/State.lean ====
section
/-! SUPPORT. What each named update of the state does to each field, one lemma a field; what each update does to the
registers, as they are read; and the register laws of 10_state.md R12. -/

namespace Sys2Proof.Machine

/-! ### `setHiLo` -/

@[simp] theorem State.setHiLo_gpr (s : State) (v : HiLo) : (s.setHiLo v).gpr = s.gpr := rfl
@[simp] theorem State.setHiLo_hi (s : State) (v : HiLo) : (s.setHiLo v).hi = v.hi := rfl
@[simp] theorem State.setHiLo_lo (s : State) (v : HiLo) : (s.setHiLo v).lo = v.lo := rfl
@[simp] theorem State.setHiLo_pc (s : State) (v : HiLo) : (s.setHiLo v).pc = s.pc := rfl
@[simp] theorem State.setHiLo_mem (s : State) (v : HiLo) : (s.setHiLo v).mem = s.mem := rfl
@[simp] theorem State.setHiLo_runState (s : State) (v : HiLo) : (s.setHiLo v).runState = s.runState := rfl
@[simp] theorem State.setHiLo_stopFlag (s : State) (v : HiLo) : (s.setHiLo v).stopFlag = s.stopFlag := rfl
@[simp] theorem State.setHiLo_haltCause (s : State) (v : HiLo) : (s.setHiLo v).haltCause = s.haltCause := rfl
@[simp] theorem State.setHiLo_haltInfo (s : State) (v : HiLo) : (s.setHiLo v).haltInfo = s.haltInfo := rfl
@[simp] theorem State.setHiLo_inPos (s : State) (v : HiLo) : (s.setHiLo v).inPos = s.inPos := rfl
@[simp] theorem State.setHiLo_out (s : State) (v : HiLo) : (s.setHiLo v).out = s.out := rfl
@[simp] theorem State.setHiLo_cfg (s : State) (v : HiLo) : (s.setHiLo v).cfg = s.cfg := rfl

/-! ### `setPc` -/

@[simp] theorem State.setPc_gpr (s : State) (v : Word) : (s.setPc v).gpr = s.gpr := rfl
@[simp] theorem State.setPc_hi (s : State) (v : Word) : (s.setPc v).hi = s.hi := rfl
@[simp] theorem State.setPc_lo (s : State) (v : Word) : (s.setPc v).lo = s.lo := rfl
@[simp] theorem State.setPc_pc (s : State) (v : Word) : (s.setPc v).pc = v := rfl
@[simp] theorem State.setPc_mem (s : State) (v : Word) : (s.setPc v).mem = s.mem := rfl
@[simp] theorem State.setPc_runState (s : State) (v : Word) : (s.setPc v).runState = s.runState := rfl
@[simp] theorem State.setPc_stopFlag (s : State) (v : Word) : (s.setPc v).stopFlag = s.stopFlag := rfl
@[simp] theorem State.setPc_haltCause (s : State) (v : Word) : (s.setPc v).haltCause = s.haltCause := rfl
@[simp] theorem State.setPc_haltInfo (s : State) (v : Word) : (s.setPc v).haltInfo = s.haltInfo := rfl
@[simp] theorem State.setPc_inPos (s : State) (v : Word) : (s.setPc v).inPos = s.inPos := rfl
@[simp] theorem State.setPc_out (s : State) (v : Word) : (s.setPc v).out = s.out := rfl
@[simp] theorem State.setPc_cfg (s : State) (v : Word) : (s.setPc v).cfg = s.cfg := rfl

/-! ### `advance` -/

@[simp] theorem State.advance_gpr (s : State) : (s.advance).gpr = s.gpr := rfl
@[simp] theorem State.advance_hi (s : State) : (s.advance).hi = s.hi := rfl
@[simp] theorem State.advance_lo (s : State) : (s.advance).lo = s.lo := rfl
@[simp] theorem State.advance_pc (s : State) : (s.advance).pc = s.pc + 4#32 := rfl
@[simp] theorem State.advance_mem (s : State) : (s.advance).mem = s.mem := rfl
@[simp] theorem State.advance_runState (s : State) : (s.advance).runState = s.runState := rfl
@[simp] theorem State.advance_stopFlag (s : State) : (s.advance).stopFlag = s.stopFlag := rfl
@[simp] theorem State.advance_haltCause (s : State) : (s.advance).haltCause = s.haltCause := rfl
@[simp] theorem State.advance_haltInfo (s : State) : (s.advance).haltInfo = s.haltInfo := rfl
@[simp] theorem State.advance_inPos (s : State) : (s.advance).inPos = s.inPos := rfl
@[simp] theorem State.advance_out (s : State) : (s.advance).out = s.out := rfl
@[simp] theorem State.advance_cfg (s : State) : (s.advance).cfg = s.cfg := rfl

/-! ### `raise` -/

@[simp] theorem State.raise_gpr (s : State) (c : HaltCause) (i : Word) : (s.raise c i).gpr = s.gpr := rfl
@[simp] theorem State.raise_hi (s : State) (c : HaltCause) (i : Word) : (s.raise c i).hi = s.hi := rfl
@[simp] theorem State.raise_lo (s : State) (c : HaltCause) (i : Word) : (s.raise c i).lo = s.lo := rfl
@[simp] theorem State.raise_pc (s : State) (c : HaltCause) (i : Word) : (s.raise c i).pc = s.pc := rfl
@[simp] theorem State.raise_mem (s : State) (c : HaltCause) (i : Word) : (s.raise c i).mem = s.mem := rfl
@[simp] theorem State.raise_runState (s : State) (c : HaltCause) (i : Word) : (s.raise c i).runState = .halted := rfl
@[simp] theorem State.raise_stopFlag (s : State) (c : HaltCause) (i : Word) : (s.raise c i).stopFlag = s.stopFlag := rfl
@[simp] theorem State.raise_haltCause (s : State) (c : HaltCause) (i : Word) : (s.raise c i).haltCause = c := rfl
@[simp] theorem State.raise_haltInfo (s : State) (c : HaltCause) (i : Word) : (s.raise c i).haltInfo = i := rfl
@[simp] theorem State.raise_inPos (s : State) (c : HaltCause) (i : Word) : (s.raise c i).inPos = s.inPos := rfl
@[simp] theorem State.raise_out (s : State) (c : HaltCause) (i : Word) : (s.raise c i).out = s.out := rfl
@[simp] theorem State.raise_cfg (s : State) (c : HaltCause) (i : Word) : (s.raise c i).cfg = s.cfg := rfl

/-! ### `raiseMem` -/

@[simp] theorem State.raiseMem_gpr (s : State) (f : MemFault) : (s.raiseMem f).gpr = s.gpr := rfl
@[simp] theorem State.raiseMem_hi (s : State) (f : MemFault) : (s.raiseMem f).hi = s.hi := rfl
@[simp] theorem State.raiseMem_lo (s : State) (f : MemFault) : (s.raiseMem f).lo = s.lo := rfl
@[simp] theorem State.raiseMem_pc (s : State) (f : MemFault) : (s.raiseMem f).pc = s.pc := rfl
@[simp] theorem State.raiseMem_mem (s : State) (f : MemFault) : (s.raiseMem f).mem = s.mem := rfl
@[simp] theorem State.raiseMem_runState (s : State) (f : MemFault) : (s.raiseMem f).runState = .halted := rfl
@[simp] theorem State.raiseMem_stopFlag (s : State) (f : MemFault) : (s.raiseMem f).stopFlag = s.stopFlag := rfl
@[simp] theorem State.raiseMem_haltCause (s : State) (f : MemFault) : (s.raiseMem f).haltCause = .memoryFault f.kind := rfl
@[simp] theorem State.raiseMem_haltInfo (s : State) (f : MemFault) : (s.raiseMem f).haltInfo = f.addr := rfl
@[simp] theorem State.raiseMem_inPos (s : State) (f : MemFault) : (s.raiseMem f).inPos = s.inPos := rfl
@[simp] theorem State.raiseMem_out (s : State) (f : MemFault) : (s.raiseMem f).out = s.out := rfl
@[simp] theorem State.raiseMem_cfg (s : State) (f : MemFault) : (s.raiseMem f).cfg = s.cfg := rfl

/-! ### `haltStop` -/

@[simp] theorem State.haltStop_gpr (s : State) : (s.haltStop).gpr = s.gpr := rfl
@[simp] theorem State.haltStop_hi (s : State) : (s.haltStop).hi = s.hi := rfl
@[simp] theorem State.haltStop_lo (s : State) : (s.haltStop).lo = s.lo := rfl
@[simp] theorem State.haltStop_pc (s : State) : (s.haltStop).pc = s.pc := rfl
@[simp] theorem State.haltStop_mem (s : State) : (s.haltStop).mem = s.mem := rfl
@[simp] theorem State.haltStop_runState (s : State) : (s.haltStop).runState = .halted := rfl
@[simp] theorem State.haltStop_stopFlag (s : State) : (s.haltStop).stopFlag = s.stopFlag := rfl
@[simp] theorem State.haltStop_haltCause (s : State) : (s.haltStop).haltCause = .stop := rfl
@[simp] theorem State.haltStop_haltInfo (s : State) : (s.haltStop).haltInfo = 0#32 := rfl
@[simp] theorem State.haltStop_inPos (s : State) : (s.haltStop).inPos = s.inPos := rfl
@[simp] theorem State.haltStop_out (s : State) : (s.haltStop).out = s.out := rfl
@[simp] theorem State.haltStop_cfg (s : State) : (s.haltStop).cfg = s.cfg := rfl

/-! ### `consoleOut` -/

@[simp] theorem State.consoleOut_gpr (s : State) (b : Byte) : (s.consoleOut b).gpr = s.gpr := rfl
@[simp] theorem State.consoleOut_hi (s : State) (b : Byte) : (s.consoleOut b).hi = s.hi := rfl
@[simp] theorem State.consoleOut_lo (s : State) (b : Byte) : (s.consoleOut b).lo = s.lo := rfl
@[simp] theorem State.consoleOut_pc (s : State) (b : Byte) : (s.consoleOut b).pc = s.pc := rfl
@[simp] theorem State.consoleOut_mem (s : State) (b : Byte) : (s.consoleOut b).mem = s.mem := rfl
@[simp] theorem State.consoleOut_runState (s : State) (b : Byte) : (s.consoleOut b).runState = s.runState := rfl
@[simp] theorem State.consoleOut_stopFlag (s : State) (b : Byte) : (s.consoleOut b).stopFlag = s.stopFlag := rfl
@[simp] theorem State.consoleOut_haltCause (s : State) (b : Byte) : (s.consoleOut b).haltCause = s.haltCause := rfl
@[simp] theorem State.consoleOut_haltInfo (s : State) (b : Byte) : (s.consoleOut b).haltInfo = s.haltInfo := rfl
@[simp] theorem State.consoleOut_inPos (s : State) (b : Byte) : (s.consoleOut b).inPos = s.inPos := rfl
@[simp] theorem State.consoleOut_out (s : State) (b : Byte) : (s.consoleOut b).out = s.out ++ [b] := rfl
@[simp] theorem State.consoleOut_cfg (s : State) (b : Byte) : (s.consoleOut b).cfg = s.cfg := rfl

/-! ### `setWord` -/

@[simp] theorem State.setWord_gpr (s : State) (a : Nat) (v : Word) : (s.setWord a v).gpr = s.gpr := rfl
@[simp] theorem State.setWord_hi (s : State) (a : Nat) (v : Word) : (s.setWord a v).hi = s.hi := rfl
@[simp] theorem State.setWord_lo (s : State) (a : Nat) (v : Word) : (s.setWord a v).lo = s.lo := rfl
@[simp] theorem State.setWord_pc (s : State) (a : Nat) (v : Word) : (s.setWord a v).pc = s.pc := rfl
@[simp] theorem State.setWord_mem (s : State) (a : Nat) (v : Word) : (s.setWord a v).mem = s.mem.writeWord s.cfg.memFill a v := rfl
@[simp] theorem State.setWord_runState (s : State) (a : Nat) (v : Word) : (s.setWord a v).runState = s.runState := rfl
@[simp] theorem State.setWord_stopFlag (s : State) (a : Nat) (v : Word) : (s.setWord a v).stopFlag = s.stopFlag := rfl
@[simp] theorem State.setWord_haltCause (s : State) (a : Nat) (v : Word) : (s.setWord a v).haltCause = s.haltCause := rfl
@[simp] theorem State.setWord_haltInfo (s : State) (a : Nat) (v : Word) : (s.setWord a v).haltInfo = s.haltInfo := rfl
@[simp] theorem State.setWord_inPos (s : State) (a : Nat) (v : Word) : (s.setWord a v).inPos = s.inPos := rfl
@[simp] theorem State.setWord_out (s : State) (a : Nat) (v : Word) : (s.setWord a v).out = s.out := rfl
@[simp] theorem State.setWord_cfg (s : State) (a : Nat) (v : Word) : (s.setWord a v).cfg = s.cfg := rfl

/-! ### `writeReg` -/

@[simp] theorem State.writeReg_hi (s : State) (r : RegNum) (v : Word) : (s.writeReg r v).hi = s.hi := by
  unfold State.writeReg; split <;> rfl
@[simp] theorem State.writeReg_lo (s : State) (r : RegNum) (v : Word) : (s.writeReg r v).lo = s.lo := by
  unfold State.writeReg; split <;> rfl
@[simp] theorem State.writeReg_pc (s : State) (r : RegNum) (v : Word) : (s.writeReg r v).pc = s.pc := by
  unfold State.writeReg; split <;> rfl
@[simp] theorem State.writeReg_mem (s : State) (r : RegNum) (v : Word) : (s.writeReg r v).mem = s.mem := by
  unfold State.writeReg; split <;> rfl
@[simp] theorem State.writeReg_runState (s : State) (r : RegNum) (v : Word) : (s.writeReg r v).runState = s.runState := by
  unfold State.writeReg; split <;> rfl
@[simp] theorem State.writeReg_stopFlag (s : State) (r : RegNum) (v : Word) : (s.writeReg r v).stopFlag = s.stopFlag := by
  unfold State.writeReg; split <;> rfl
@[simp] theorem State.writeReg_haltCause (s : State) (r : RegNum) (v : Word) : (s.writeReg r v).haltCause = s.haltCause := by
  unfold State.writeReg; split <;> rfl
@[simp] theorem State.writeReg_haltInfo (s : State) (r : RegNum) (v : Word) : (s.writeReg r v).haltInfo = s.haltInfo := by
  unfold State.writeReg; split <;> rfl
@[simp] theorem State.writeReg_inPos (s : State) (r : RegNum) (v : Word) : (s.writeReg r v).inPos = s.inPos := by
  unfold State.writeReg; split <;> rfl
@[simp] theorem State.writeReg_out (s : State) (r : RegNum) (v : Word) : (s.writeReg r v).out = s.out := by
  unfold State.writeReg; split <;> rfl
@[simp] theorem State.writeReg_cfg (s : State) (r : RegNum) (v : Word) : (s.writeReg r v).cfg = s.cfg := by
  unfold State.writeReg; split <;> rfl

/-! ### `consoleIn` -/

@[simp] theorem State.consoleIn_gpr (s : State) : s.consoleIn.2.gpr = s.gpr := by
  unfold State.consoleIn; split <;> rfl
@[simp] theorem State.consoleIn_hi (s : State) : s.consoleIn.2.hi = s.hi := by
  unfold State.consoleIn; split <;> rfl
@[simp] theorem State.consoleIn_lo (s : State) : s.consoleIn.2.lo = s.lo := by
  unfold State.consoleIn; split <;> rfl
@[simp] theorem State.consoleIn_pc (s : State) : s.consoleIn.2.pc = s.pc := by
  unfold State.consoleIn; split <;> rfl
@[simp] theorem State.consoleIn_mem (s : State) : s.consoleIn.2.mem = s.mem := by
  unfold State.consoleIn; split <;> rfl
@[simp] theorem State.consoleIn_runState (s : State) : s.consoleIn.2.runState = s.runState := by
  unfold State.consoleIn; split <;> rfl
@[simp] theorem State.consoleIn_stopFlag (s : State) : s.consoleIn.2.stopFlag = s.stopFlag := by
  unfold State.consoleIn; split <;> rfl
@[simp] theorem State.consoleIn_haltCause (s : State) : s.consoleIn.2.haltCause = s.haltCause := by
  unfold State.consoleIn; split <;> rfl
@[simp] theorem State.consoleIn_haltInfo (s : State) : s.consoleIn.2.haltInfo = s.haltInfo := by
  unfold State.consoleIn; split <;> rfl
@[simp] theorem State.consoleIn_out (s : State) : s.consoleIn.2.out = s.out := by
  unfold State.consoleIn; split <;> rfl
@[simp] theorem State.consoleIn_cfg (s : State) : s.consoleIn.2.cfg = s.cfg := by
  unfold State.consoleIn; split <;> rfl

/-- What an input access can do: deliver and consume a byte, or return `EOF_VALUE` and change nothing (20_memory.md R36). -/
theorem State.consoleIn_cases (s : State) :
    (∃ b, s.cfg.consoleIn[s.inPos]? = some b ∧ s.consoleIn = (sext8 b, { s with inPos := s.inPos + 1 })) ∨
      (s.cfg.consoleIn.length ≤ s.inPos ∧ s.consoleIn = (Config.eofValue, s)) := by
  unfold State.consoleIn
  cases h : s.cfg.consoleIn[s.inPos]? with
  | some b => exact .inl ⟨b, rfl, rfl⟩
  | none => exact .inr ⟨List.getElem?_eq_none_iff.mp h, rfl⟩

/-- The position after an input access stays within the input (10_state.md R22). -/
theorem State.consoleIn_inPos_le (s : State) (h : s.inPos ≤ s.cfg.consoleIn.length) :
    s.consoleIn.2.inPos ≤ s.cfg.consoleIn.length := by
  obtain ⟨b, hb, e⟩ | ⟨_, e⟩ := s.consoleIn_cases
  · have := (List.getElem?_eq_some_iff.mp hb).1
    rw [e]; exact this
  · rw [e]; exact h

/-! ### `requestStop` -/

@[simp] theorem State.requestStop_running (s : State) (h : s.runState = .running) :
    s.requestStop = { s with stopFlag := true } := by
  simp only [State.requestStop, h]

@[simp] theorem State.requestStop_halted (s : State) (h : s.runState = .halted) : s.requestStop = s := by
  simp only [State.requestStop, h]

/-! ### Registers as they are read -/

@[simp] theorem State.readReg_zero (s : State) : s.readReg 0#5 = 0#32 := rfl

@[simp] theorem State.writeReg_zero (s : State) (v : Word) : s.writeReg 0#5 v = s := rfl

/-- Reading registers looks at the stored registers only. -/
theorem State.readReg_congr {s t : State} (h : t.gpr = s.gpr) (r : RegNum) : t.readReg r = s.readReg r := by
  simp only [State.readReg, h]

@[simp] theorem State.readReg_writeReg_same (s : State) (r : RegNum) (v : Word) :
    (s.writeReg r v).readReg r = if r = 0#5 then 0#32 else v := by
  by_cases h : r = 0#5
  · subst h; rfl
  · simp [State.writeReg, State.readReg, h]

@[simp] theorem State.readReg_writeReg_ne (s : State) {r q : RegNum} (v : Word) (hq : q ≠ r) :
    (s.writeReg r v).readReg q = s.readReg q := by
  by_cases h : r = 0#5
  · subst h; rfl
  · by_cases h0 : q = 0#5
    · subst h0; rfl
    · have hne : r.toNat - 1 ≠ q.toNat - 1 := fun e => hq (BitVec.eq_of_toNat_eq (by
        have h1 : r.toNat ≠ 0 := fun e => h (BitVec.eq_of_toNat_eq e)
        have h2 : q.toNat ≠ 0 := fun e => h0 (BitVec.eq_of_toNat_eq e)
        omega))
      simp [State.writeReg, State.readReg, h, h0, Vector.getElem_set_ne _ _ hne]

@[simp] theorem State.setHiLo_readReg (s : State) (v : HiLo) (r : RegNum) : (s.setHiLo v).readReg r = s.readReg r := rfl
@[simp] theorem State.setPc_readReg (s : State) (v : Word) (r : RegNum) : (s.setPc v).readReg r = s.readReg r := rfl
@[simp] theorem State.advance_readReg (s : State) (r : RegNum) : (s.advance).readReg r = s.readReg r := rfl
@[simp] theorem State.raise_readReg (s : State) (c : HaltCause) (i : Word) (r : RegNum) : (s.raise c i).readReg r = s.readReg r := rfl
@[simp] theorem State.raiseMem_readReg (s : State) (f : MemFault) (r : RegNum) : (s.raiseMem f).readReg r = s.readReg r := rfl
@[simp] theorem State.haltStop_readReg (s : State) (r : RegNum) : (s.haltStop).readReg r = s.readReg r := rfl
@[simp] theorem State.consoleOut_readReg (s : State) (b : Byte) (r : RegNum) : (s.consoleOut b).readReg r = s.readReg r := rfl
@[simp] theorem State.setWord_readReg (s : State) (a : Nat) (v : Word) (r : RegNum) : (s.setWord a v).readReg r = s.readReg r := rfl
@[simp] theorem State.consoleIn_readReg (s : State) (r : RegNum) : s.consoleIn.2.readReg r = s.readReg r :=
  State.readReg_congr s.consoleIn_gpr r

end Sys2Proof.Machine
end

