-- ==== Sys2Proof/Laws/Memory.lean ====
section
/-! SUPPORT. The laws of memory: a read after a write to the same place gives the value written, a write leaves every
other place alone, and every operation keeps the canonical form. The first two hold of any list of cells. -/

namespace Sys2Proof.Machine

theorem Memory.readByte_erase_ne (fill : Word) (m : Memory) {a b : Nat} (h : b ≠ a) :
    (m.erase a).readByte fill b = m.readByte fill b := by
  induction m with
  | nil => rfl
  | cons c m ih =>
    obtain ⟨k, v⟩ := c
    by_cases hk : k = a
    · subst hk
      simpa [Memory.erase, Memory.readByte, Ne.symm h] using ih
    · have e : Memory.erase ((k, v) :: m) a = (k, v) :: Memory.erase m a := by simp [Memory.erase, hk]
      rw [e]; simp only [Memory.readByte, ih]

theorem Memory.readByte_erase_same (fill : Word) (m : Memory) (a : Nat) :
    (m.erase a).readByte fill a = fillByte fill a := by
  induction m with
  | nil => rfl
  | cons c m ih =>
    obtain ⟨k, v⟩ := c
    by_cases hk : k = a
    · simpa [Memory.erase, hk] using ih
    · have e : Memory.erase ((k, v) :: m) a = (k, v) :: Memory.erase m a := by simp [Memory.erase, hk]
      rw [e]; simp only [Memory.readByte, hk, if_false, ih]

theorem Memory.readByte_insert_ne (fill : Word) (m : Memory) {a b : Nat} (v : Byte) (h : b ≠ a) :
    (m.insert a v).readByte fill b = m.readByte fill b := by
  induction m with
  | nil => simp [Memory.insert, Memory.readByte, Ne.symm h]
  | cons c m ih =>
    obtain ⟨k, w⟩ := c
    simp only [Memory.insert]
    split
    · simp [Memory.readByte, Ne.symm h]
    · simp only [Memory.readByte, ih]

theorem Memory.readByte_insert_same (fill : Word) (m : Memory) (a : Nat) (v : Byte) (h : ∀ c ∈ m, c.1 ≠ a) :
    (m.insert a v).readByte fill a = v := by
  induction m with
  | nil => simp [Memory.insert, Memory.readByte]
  | cons c m ih =>
    obtain ⟨k, w⟩ := c
    have hk : k ≠ a := h (k, w) (List.mem_cons_self ..)
    simp only [Memory.insert]
    split
    · simp [Memory.readByte]
    · simp only [Memory.readByte, hk, if_false, ih fun c hc => h c (List.mem_cons_of_mem _ hc)]

theorem Memory.mem_erase {m : Memory} {a : Nat} {c : Host.Cell} (h : c ∈ m.erase a) : c ∈ m ∧ c.1 ≠ a := by
  simpa [Memory.erase] using h

@[simp] theorem Memory.readByte_writeByte_same (fill : Word) (m : Memory) (a : Nat) (v : Byte) :
    (m.writeByte fill a v).readByte fill a = v := by
  unfold Memory.writeByte
  split
  · rw [Memory.readByte_erase_same]; simp_all
  · exact Memory.readByte_insert_same fill _ a v fun c hc => (Memory.mem_erase hc).2

@[simp] theorem Memory.readByte_writeByte_ne (fill : Word) (m : Memory) {a b : Nat} (v : Byte) (h : b ≠ a) :
    (m.writeByte fill a v).readByte fill b = m.readByte fill b := by
  unfold Memory.writeByte
  split
  · exact Memory.readByte_erase_ne fill m h
  · rw [Memory.readByte_insert_ne fill _ v h, Memory.readByte_erase_ne fill m h]

/-- A store leaves every byte outside its word alone. -/
theorem Memory.readByte_writeWord_ne (fill : Word) (m : Memory) {a b : Nat} (v : Word) (h : b < a ∨ a + 4 ≤ b) :
    (m.writeWord fill a v).readByte fill b = m.readByte fill b := by
  unfold Memory.writeWord
  rw [Memory.readByte_writeByte_ne _ _ _ (by omega), Memory.readByte_writeByte_ne _ _ _ (by omega),
    Memory.readByte_writeByte_ne _ _ _ (by omega), Memory.readByte_writeByte_ne _ _ _ (by omega)]

/-- Byte `k` of a stored word lies at offset `k`. -/
theorem Memory.readByte_writeWord_at (fill : Word) (m : Memory) (a : Nat) (v : Word) {k : Nat} (h : k < 4) :
    (m.writeWord fill a v).readByte fill (a + k) = wordByte v k := by
  unfold Memory.writeWord
  obtain rfl | rfl | rfl | rfl : k = 0 ∨ k = 1 ∨ k = 2 ∨ k = 3 := by omega
  · rw [Memory.readByte_writeByte_ne _ _ _ (by omega), Memory.readByte_writeByte_ne _ _ _ (by omega),
      Memory.readByte_writeByte_ne _ _ _ (by omega)]
    exact Memory.readByte_writeByte_same ..
  · rw [Memory.readByte_writeByte_ne _ _ _ (by omega), Memory.readByte_writeByte_ne _ _ _ (by omega),
      Memory.readByte_writeByte_same]
  · rw [Memory.readByte_writeByte_ne _ _ _ (by omega), Memory.readByte_writeByte_same]
  · rw [Memory.readByte_writeByte_same]

/-- A word is its four bytes (20_memory.md R39). -/
theorem wordOfBytes_wordByte (v : Word) :
    wordOfBytes (wordByte v 0) (wordByte v 1) (wordByte v 2) (wordByte v 3) = v := by
  apply BitVec.eq_of_getLsbD_eq
  intro i hi
  simp only [wordOfBytes, wordByte, BitVec.getLsbD_append, BitVec.getLsbD_extractLsb']
  by_cases h1 : i < 8
  · simp [h1]
  by_cases h2 : i < 16
  · simp [h1, show i - 8 < 8 by omega, show 8 + (i - 8) = i by omega]
  by_cases h3 : i < 24
  · simp [h1, show ¬ i - 8 < 8 by omega, show i - 8 - 8 < 8 by omega, show 16 + (i - 8 - 8) = i by omega]
  · simp [h1, show ¬ i - 8 < 8 by omega, show ¬ i - 8 - 8 < 8 by omega, show i - 8 - 8 - 8 < 8 by omega,
      show 24 + (i - 8 - 8 - 8) = i by omega]

/-- A load of a word returns what the last store to it stored (20_memory.md R44). -/
@[simp] theorem Memory.readWord_writeWord_same (fill : Word) (m : Memory) (a : Nat) (v : Word) :
    (m.writeWord fill a v).readWord fill a = v := by
  unfold Memory.readWord
  have h0 := Memory.readByte_writeWord_at fill m a v (k := 0) (by omega)
  rw [Nat.add_zero] at h0
  rw [h0, Memory.readByte_writeWord_at fill m a v (k := 1) (by omega),
    Memory.readByte_writeWord_at fill m a v (k := 2) (by omega),
    Memory.readByte_writeWord_at fill m a v (k := 3) (by omega), wordOfBytes_wordByte]

/-- A store leaves every other word alone. -/
theorem Memory.readWord_writeWord_ne (fill : Word) (m : Memory) {a b : Nat} (v : Word) (h : b + 4 ≤ a ∨ a + 4 ≤ b) :
    (m.writeWord fill a v).readWord fill b = m.readWord fill b := by
  unfold Memory.readWord
  rw [Memory.readByte_writeWord_ne _ _ _ (by omega), Memory.readByte_writeWord_ne _ _ _ (by omega),
    Memory.readByte_writeWord_ne _ _ _ (by omega), Memory.readByte_writeWord_ne _ _ _ (by omega)]

/-! ## The canonical form -/

theorem Memory.wf_iff (fill : Word) (m : Memory) :
    Memory.wf fill m = true ↔ (m.Pairwise fun c d => c.1 < d.1) ∧ ∀ c ∈ m, c.2 ≠ fillByte fill c.1 := by
  simp [Memory.wf]

theorem Memory.within_iff (n : Nat) (m : Memory) : Memory.within n m = true ↔ ∀ c ∈ m, c.1 < n := by
  simp [Memory.within]

theorem Memory.mem_insert {m : Memory} {a : Nat} {b : Byte} {c : Host.Cell} (h : c ∈ m.insert a b) :
    c = (a, b) ∨ c ∈ m := by
  induction m with
  | nil => simpa [Memory.insert] using h
  | cons d m ih =>
    simp only [Memory.insert] at h
    split at h
    · simpa using h
    · rcases List.mem_cons.mp h with rfl | h
      · exact .inr (List.mem_cons_self ..)
      · exact (ih h).imp_right (List.mem_cons_of_mem _)

theorem Memory.insert_sorted {m : Memory} {a : Nat} {b : Byte} (hs : m.Pairwise fun c d => c.1 < d.1)
    (ha : ∀ c ∈ m, c.1 ≠ a) : (m.insert a b).Pairwise fun c d => c.1 < d.1 := by
  induction m with
  | nil => simp [Memory.insert]
  | cons d m ih =>
    obtain ⟨hd, hm⟩ := List.pairwise_cons.mp hs
    simp only [Memory.insert]
    split
    · rename_i hlt
      refine List.pairwise_cons.mpr ⟨fun c hc => ?_, hs⟩
      rcases List.mem_cons.mp hc with rfl | hc
      · exact hlt
      · exact lt_trans hlt (hd c hc)
    · have hne := ha d (List.mem_cons_self ..)
      refine List.pairwise_cons.mpr ⟨fun c hc => ?_, ih hm fun c hc => ha c (List.mem_cons_of_mem _ hc)⟩
      rcases Memory.mem_insert hc with rfl | hc
      · show d.1 < a; omega
      · exact hd c hc

/-- Writing a byte keeps the canonical form. -/
theorem Memory.writeByte_wf {fill : Word} {m : Memory} (a : Nat) (b : Byte) (h : Memory.wf fill m = true) :
    Memory.wf fill (m.writeByte fill a b) = true := by
  obtain ⟨hs, hf⟩ := (Memory.wf_iff fill m).mp h
  have hse : (m.erase a).Pairwise fun c d => c.1 < d.1 := hs.sublist List.filter_sublist
  rw [Memory.wf_iff]
  unfold Memory.writeByte
  split
  · exact ⟨hse, fun c hc => hf c (Memory.mem_erase hc).1⟩
  · rename_i hb
    refine ⟨Memory.insert_sorted hse fun c hc => (Memory.mem_erase hc).2, fun c hc => ?_⟩
    rcases Memory.mem_insert hc with rfl | hc
    · exact hb
    · exact hf c (Memory.mem_erase hc).1

/-- Writing a byte below the bound keeps every address below it. -/
theorem Memory.writeByte_within {fill : Word} {m : Memory} {n a : Nat} (b : Byte) (ha : a < n)
    (h : Memory.within n m = true) : Memory.within n (m.writeByte fill a b) = true := by
  rw [Memory.within_iff] at h ⊢
  unfold Memory.writeByte
  split
  · exact fun c hc => h c (Memory.mem_erase hc).1
  · intro c hc
    rcases Memory.mem_insert hc with rfl | hc
    · exact ha
    · exact h c (Memory.mem_erase hc).1

/-- Writing a word keeps the canonical form. -/
theorem Memory.writeWord_wf {fill : Word} {m : Memory} (a : Nat) (v : Word) (h : Memory.wf fill m = true) :
    Memory.wf fill (m.writeWord fill a v) = true :=
  Memory.writeByte_wf _ _ (Memory.writeByte_wf _ _ (Memory.writeByte_wf _ _ (Memory.writeByte_wf _ _ h)))

/-- Writing a word that ends below the bound keeps every address below it. -/
theorem Memory.writeWord_within {fill : Word} {m : Memory} {n a : Nat} (v : Word) (ha : a + 4 ≤ n)
    (h : Memory.within n m = true) : Memory.within n (m.writeWord fill a v) = true :=
  Memory.writeByte_within _ (by omega) (Memory.writeByte_within _ (by omega)
    (Memory.writeByte_within _ (by omega) (Memory.writeByte_within _ (by omega) h)))

/-- In canonical form a listed address reads as something else than the fill, and the listed addresses are those. -/
theorem Memory.listed_iff {fill : Word} {m : Memory} (h : Memory.wf fill m = true) (a : Nat) (b : Byte) :
    (a, b) ∈ m ↔ m.readByte fill a = b ∧ b ≠ fillByte fill a := by
  obtain ⟨hs, hf⟩ := (Memory.wf_iff fill m).mp h
  clear h
  induction m with
  | nil =>
    simp only [List.not_mem_nil, Memory.readByte, false_iff, not_and, not_not]
    exact fun e => e.symm
  | cons c m ih =>
    obtain ⟨k, v⟩ := c
    obtain ⟨hc, hm⟩ := List.pairwise_cons.mp hs
    have hih := ih hm fun c hc => hf c (List.mem_cons_of_mem _ hc)
    have hv : v ≠ fillByte fill k := hf (k, v) (List.mem_cons_self ..)
    rw [List.mem_cons, Memory.readByte]
    by_cases hk : k = a
    · subst hk
      rw [if_pos rfl]
      constructor
      · rintro (e | e)
        · obtain rfl := (Prod.mk.inj e).2
          exact ⟨rfl, hv⟩
        · exact absurd (hc _ e) (lt_irrefl _)
      · rintro ⟨rfl, _⟩
        exact .inl rfl
    · rw [if_neg hk, ← hih]
      constructor
      · rintro (e | e)
        · exact absurd (Prod.mk.inj e).1.symm hk
        · exact e
      · exact .inr

/-! ## The state's memory -/

@[simp] theorem State.wordAt_setWord_same (s : State) (a : Nat) (v : Word) : (s.setWord a v).wordAt a = v :=
  Memory.readWord_writeWord_same ..

theorem State.wordAt_setWord_ne (s : State) {a b : Nat} (v : Word) (h : b + 4 ≤ a ∨ a + 4 ≤ b) :
    (s.setWord a v).wordAt b = s.wordAt b :=
  Memory.readWord_writeWord_ne _ _ _ h

theorem State.byteAt_setWord_ne (s : State) {a b : Nat} (v : Word) (h : b < a ∨ a + 4 ≤ b) :
    (s.setWord a v).byteAt b = s.byteAt b :=
  Memory.readByte_writeWord_ne _ _ _ h

/-- What is read depends on the memory and the fill alone. -/
theorem State.byteAt_congr {s t : State} (hm : t.mem = s.mem) (hc : t.cfg = s.cfg) (a : Nat) :
    t.byteAt a = s.byteAt a := by
  simp only [State.byteAt, hm, hc]

/-- What is read depends on the memory and the fill alone. -/
theorem State.wordAt_congr {s t : State} (hm : t.mem = s.mem) (hc : t.cfg = s.cfg) (a : Nat) :
    t.wordAt a = s.wordAt a := by
  simp only [State.wordAt, hm, hc]

/-- A store inside the memory keeps the canonical form and the bound (10_state.md R21). -/
theorem State.setWord_memWf {s : State} {a : Nat} (v : Word)
    (h : (Memory.wf s.cfg.memFill s.mem && Memory.within s.cfg.memBytes s.mem) = true)
    (ha : a + 4 ≤ s.cfg.memBytes) :
    (Memory.wf s.cfg.memFill (s.setWord a v).mem && Memory.within s.cfg.memBytes (s.setWord a v).mem) = true := by
  rw [Bool.and_eq_true] at h ⊢
  exact ⟨Memory.writeWord_wf _ _ h.1, Memory.writeWord_within _ ha h.2⟩

/-- The memory right after reset is in the canonical form. -/
theorem State.reset_mem_wf : Memory.wf State.reset.cfg.memFill State.reset.mem = true := rfl

end Sys2Proof.Machine
end

