-- ==== Sys2Proof/Laws/Access.lean ====
section
/-! SUPPORT. What each access primitive can do (20_memory.md R33 to R35), said once; later proofs cite these. -/

namespace Sys2Proof.Machine

/-- An instruction-side read answers a word exactly where the address is aligned and in bounds (R35). -/
theorem State.fetchWord_ok_iff (s : State) (a w : Word) :
    s.fetchWord a = .ok w ↔ a.toNat % 4 = 0 ∧ a.toNat < s.cfg.memBytes ∧ s.wordAt a.toNat = w := by
  unfold State.fetchWord
  by_cases h1 : a.toNat % 4 = 0
  · by_cases h2 : s.cfg.memBytes ≤ a.toNat
    · simp [h1, h2, Nat.not_lt.mpr h2]
    · simp [h1, h2, Nat.lt_of_not_le h2]
  · simp [h1]

/-- The three outcomes of an instruction-side read, in the order of its checks (R35). -/
theorem State.fetchWord_cases (s : State) (a : Word) :
    (a.toNat % 4 ≠ 0 ∧ s.fetchWord a = .error { kind := .unaligned, addr := a }) ∨
      (a.toNat % 4 = 0 ∧ s.cfg.memBytes ≤ a.toNat ∧ s.fetchWord a = .error { kind := .outOfBounds, addr := a }) ∨
      (a.toNat % 4 = 0 ∧ a.toNat < s.cfg.memBytes ∧ s.fetchWord a = .ok (s.wordAt a.toNat)) := by
  unfold State.fetchWord
  by_cases h1 : a.toNat % 4 = 0
  · by_cases h2 : s.cfg.memBytes ≤ a.toNat
    · exact .inr (.inl ⟨h1, h2, by simp [h1, h2]⟩)
    · exact .inr (.inr ⟨h1, Nat.lt_of_not_le h2, by simp [h1, h2]⟩)
  · exact .inl ⟨h1, by simp [h1]⟩

/-- The four outcomes of a data-side read, in the order of its checks (R32, R33). -/
theorem State.memRead_cases (s : State) (a : Word) :
    (a.toNat % 4 ≠ 0 ∧ s.memRead a = .error { kind := .unaligned, addr := a }) ∨
      (a.toNat % 4 = 0 ∧ a = s.cfg.stdinAddr ∧ s.memRead a = .ok s.consoleIn) ∨
      (a.toNat % 4 = 0 ∧ a ≠ s.cfg.stdinAddr ∧ s.cfg.memBytes ≤ a.toNat ∧
        s.memRead a = .error { kind := .outOfBounds, addr := a }) ∨
      (a.toNat % 4 = 0 ∧ a ≠ s.cfg.stdinAddr ∧ a.toNat < s.cfg.memBytes ∧
        s.memRead a = .ok (s.wordAt a.toNat, s)) := by
  unfold State.memRead
  by_cases h1 : a.toNat % 4 = 0
  · by_cases h2 : a = s.cfg.stdinAddr
    · exact .inr (.inl ⟨h1, h2, by rw [if_neg (not_not.mpr h1), if_pos h2]⟩)
    · by_cases h3 : s.cfg.memBytes ≤ a.toNat
      · exact .inr (.inr (.inl ⟨h1, h2, h3, by rw [if_neg (not_not.mpr h1), if_neg h2, if_pos h3]⟩))
      · exact .inr (.inr (.inr ⟨h1, h2, Nat.lt_of_not_le h3, by
          rw [if_neg (not_not.mpr h1), if_neg h2, if_neg h3]⟩))
  · exact .inl ⟨h1, if_pos h1⟩

/-- The four outcomes of a data-side write, in the order of its checks (R32, R34). -/
theorem State.memWrite_cases (s : State) (a v : Word) :
    (a.toNat % 4 ≠ 0 ∧ s.memWrite a v = .error { kind := .unaligned, addr := a }) ∨
      (a.toNat % 4 = 0 ∧ a = s.cfg.stdoutAddr ∧ s.memWrite a v = .ok (s.consoleOut (v.extractLsb' 0 8))) ∨
      (a.toNat % 4 = 0 ∧ a ≠ s.cfg.stdoutAddr ∧ s.cfg.memBytes ≤ a.toNat ∧
        s.memWrite a v = .error { kind := .outOfBounds, addr := a }) ∨
      (a.toNat % 4 = 0 ∧ a ≠ s.cfg.stdoutAddr ∧ a.toNat < s.cfg.memBytes ∧
        s.memWrite a v = .ok (s.setWord a.toNat v)) := by
  unfold State.memWrite
  by_cases h1 : a.toNat % 4 = 0
  · by_cases h2 : a = s.cfg.stdoutAddr
    · exact .inr (.inl ⟨h1, h2, by rw [if_neg (not_not.mpr h1), if_pos h2]⟩)
    · by_cases h3 : s.cfg.memBytes ≤ a.toNat
      · exact .inr (.inr (.inl ⟨h1, h2, h3, by rw [if_neg (not_not.mpr h1), if_neg h2, if_pos h3]⟩))
      · exact .inr (.inr (.inr ⟨h1, h2, Nat.lt_of_not_le h3, by
          rw [if_neg (not_not.mpr h1), if_neg h2, if_neg h3]⟩))
  · exact .inl ⟨h1, if_pos h1⟩

end Sys2Proof.Machine
end

