-- ==== Sys2Proof/Laws/Assembler.lean ====
section
/-! SUPPORT. When the operands of a written line are accepted, and as what (30_encoding.md R67 to R71). -/

namespace Sys2Proof

/-- A sequence of checks succeeds exactly when each does. -/
theorem except_bind_ok {ε α β : Type} (x : Except ε α) (f : α → Except ε β) (w : β) :
    (x >>= f) = .ok w ↔ ∃ a, x = .ok a ∧ f a = .ok w := by
  cases x <;> simp [bind, Except.bind]

theorem except_pure_ok {ε α : Type} (a w : α) : (pure a : Except ε α) = .ok w ↔ w = a := by
  simp [pure, Except.pure, eq_comm]

theorem asmReg_ok_iff (n : Nat) (r : RegNum) : asmReg n = .ok r ↔ n ≤ 31 ∧ r = BitVec.ofNat 5 n := by
  unfold asmReg regNumberOk
  by_cases h : n ≤ 31 <;> simp [h, eq_comm]

theorem asmImm_ok_iff (l : Literal) (i : Half) : asmImm l = .ok i ↔ l.fitsImm = true ∧ i = l.immBits := by
  unfold asmImm
  by_cases h : l.fitsImm = true <;> simp [h, eq_comm]

theorem asmBranch_lit (pc : Nat) (l : Literal) : asmBranch pc (.lit l) = asmImm l := rfl

theorem asmBranch_label_ok_iff (pc addr : Nat) (i : Half) :
    asmBranch pc (.label addr) = .ok i ↔
      (BranchOperand.label addr).fits pc = true ∧ i = BitVec.ofInt 16 (labelOffset pc addr) := by
  unfold asmBranch
  by_cases h : (BranchOperand.label addr).fits pc = true <;> simp [h, eq_comm]

/-! ## The checks against the ranges the rules write -/

theorem Literal.fitsImm_iff (l : Literal) : l.fitsImm = true ↔ Machine.Literal.InRange l := by
  cases l <;> simp [Literal.fitsImm, Machine.Literal.InRange]

theorem BranchOperand.fits_iff (pc : Nat) (i : BranchOperand) :
    i.fits pc = true ↔ Machine.BranchOperand.InRange pc i := by
  cases i with
  | lit l => exact l.fitsImm_iff
  | label addr =>
    simp only [BranchOperand.fits, Machine.BranchOperand.InRange, Bool.and_eq_true, decide_eq_true_eq]
    unfold labelOffset
    constructor
    · rintro ⟨⟨h1, h2⟩, h3⟩
      exact ⟨((addr : Int) - ((pc : Int) + 4)) / 4, h2, h3, by omega⟩
    · rintro ⟨k, h1, h2, h3⟩
      exact ⟨⟨by omega, by omega⟩, by omega⟩

theorem WordOperand.fits_iff (w : WordOperand) : w.fits = true ↔ Machine.WordOperand.InRange w := by
  rcases w with ((n | n) | n) <;> simp [WordOperand.fits, Machine.WordOperand.InRange] <;> omega

end Sys2Proof
end

