-- ==== Sys2Proof/Laws/Boundary.lean ====
section
/-! SUPPORT. What placing an image does (70_reset_and_hazards.md R161). -/

namespace Sys2Proof.Machine

/-- Placing words changes memory only. -/
theorem State.loadWords_eq (ws : List Word) (s : State) (a : Nat) :
    s.loadWords a ws = { s with mem := (s.loadWords a ws).mem } := by
  induction ws generalizing s a with
  | nil => rfl
  | cons w ws ih => rw [State.loadWords, ih]; rfl

@[simp] theorem State.loadWords_cfg (ws : List Word) (s : State) (a : Nat) :
    (s.loadWords a ws).cfg = s.cfg := by rw [State.loadWords_eq]

/-- A word outside the placed ones reads as before. -/
theorem State.wordAt_loadWords_ne (ws : List Word) (s : State) {a b : Nat}
    (h : b + 4 ≤ a ∨ a + 4 * ws.length ≤ b) : (s.loadWords a ws).wordAt b = s.wordAt b := by
  induction ws generalizing s a with
  | nil => rfl
  | cons w ws ih =>
    rw [List.length_cons] at h
    rw [State.loadWords, ih _ (by omega), State.wordAt_setWord_ne _ _ (by omega)]

/-- A placed word reads as placed. -/
theorem State.wordAt_loadWords (ws : List Word) (s : State) (a : Nat) {k : Nat} {w : Word} (h : ws[k]? = some w) :
    (s.loadWords a ws).wordAt (a + 4 * k) = w := by
  induction ws generalizing s a k with
  | nil => simp at h
  | cons v ws ih =>
    cases k with
    | zero =>
      obtain rfl : v = w := by simpa using h
      rw [State.loadWords, State.wordAt_loadWords_ne _ _ (by omega)]
      simp
    | succ k =>
      rw [State.loadWords, show a + 4 * (k + 1) = a + 4 + 4 * k by omega]
      exact ih _ _ (by simpa using h)

/-- Placing words inside the memory keeps the canonical form and the bound. -/
theorem State.loadWords_memWf (ws : List Word) (s : State) (a : Nat)
    (h : (Memory.wf s.cfg.memFill s.mem && Memory.within s.cfg.memBytes s.mem) = true)
    (hl : a + 4 * ws.length ≤ s.cfg.memBytes) :
    (Memory.wf s.cfg.memFill (s.loadWords a ws).mem && Memory.within s.cfg.memBytes (s.loadWords a ws).mem)
      = true := by
  induction ws generalizing s a with
  | nil => exact h
  | cons w ws ih =>
    rw [List.length_cons] at hl
    exact ih (s.setWord a w) (a + 4) (State.setWord_memWf w h (by omega))
      (by rw [State.setWord_cfg]; omega)

/-- Before anything is placed, every word is the fill word (10_state.md R28). -/
theorem State.wordAt_blank (c : Config) (r : RegInit) (k : Nat) : (State.blank c r).wordAt (4 * k) = c.memFill := by
  simp only [State.wordAt, State.blank, Memory.readWord, Memory.readByte, fillByte]
  rw [show 4 * k % 4 = 0 by omega, show (4 * k + 1) % 4 = 1 by omega, show (4 * k + 2) % 4 = 2 by omega,
    show (4 * k + 3) % 4 = 3 by omega]
  exact wordOfBytes_wordByte _

end Sys2Proof.Machine
end

