-- ==== Sys2Proof/Laws/Encoding.lean ====
section
/-! SUPPORT. The fields of an encoded word, what the decoder's masks test, and that a word is its fields
(30_encoding.md R51 to R61). -/

namespace Sys2Proof

/-! ## The fields of the two formats (R52, R53) -/

@[simp] theorem opcodeOf_encodeR (f : BitVec 6) (rd rs rt : RegNum) : opcodeOf (encodeR f rd rs rt) = 0#6 := by
  apply BitVec.eq_of_getLsbD_eq
  intro i hi
  simp only [opcodeOf, encodeR, BitVec.getLsbD_extractLsb', BitVec.getLsbD_append]
  simp [show ¬ 26 + i < 6 by omega,
    show ¬ 26 + i - 6 < 5 by omega,
    show ¬ 26 + i - 6 - 5 < 5 by omega,
    show ¬ 26 + i - 6 - 5 - 5 < 5 by omega,
    show ¬ 26 + i - 6 - 5 - 5 - 5 < 5 by omega,
    show 26 + i - 6 - 5 - 5 - 5 - 5 = i by omega, hi]

@[simp] theorem rsOf_encodeR (f : BitVec 6) (rd rs rt : RegNum) : rsOf (encodeR f rd rs rt) = rs := by
  apply BitVec.eq_of_getLsbD_eq
  intro i hi
  simp only [rsOf, encodeR, BitVec.getLsbD_extractLsb', BitVec.getLsbD_append]
  simp [show ¬ 21 + i < 6 by omega,
    show ¬ 21 + i - 6 < 5 by omega,
    show ¬ 21 + i - 6 - 5 < 5 by omega,
    show ¬ 21 + i - 6 - 5 - 5 < 5 by omega,
    show 21 + i - 6 - 5 - 5 - 5 = i by omega, hi]

@[simp] theorem rtOf_encodeR (f : BitVec 6) (rd rs rt : RegNum) : rtOf (encodeR f rd rs rt) = rt := by
  apply BitVec.eq_of_getLsbD_eq
  intro i hi
  simp only [rtOf, encodeR, BitVec.getLsbD_extractLsb', BitVec.getLsbD_append]
  simp [show ¬ 16 + i < 6 by omega,
    show ¬ 16 + i - 6 < 5 by omega,
    show ¬ 16 + i - 6 - 5 < 5 by omega,
    show 16 + i - 6 - 5 - 5 = i by omega, hi]

@[simp] theorem rdOf_encodeR (f : BitVec 6) (rd rs rt : RegNum) : rdOf (encodeR f rd rs rt) = rd := by
  apply BitVec.eq_of_getLsbD_eq
  intro i hi
  simp only [rdOf, encodeR, BitVec.getLsbD_extractLsb', BitVec.getLsbD_append]
  simp [show ¬ 11 + i < 6 by omega,
    show ¬ 11 + i - 6 < 5 by omega,
    show 11 + i - 6 - 5 = i by omega, hi]

@[simp] theorem shamtOf_encodeR (f : BitVec 6) (rd rs rt : RegNum) : shamtOf (encodeR f rd rs rt) = 0#5 := by
  apply BitVec.eq_of_getLsbD_eq
  intro i hi
  simp only [shamtOf, encodeR, BitVec.getLsbD_extractLsb', BitVec.getLsbD_append]
  simp [show ¬ 6 + i < 6 by omega,
    show 6 + i - 6 = i by omega, hi]

@[simp] theorem functOf_encodeR (f : BitVec 6) (rd rs rt : RegNum) : functOf (encodeR f rd rs rt) = f := by
  apply BitVec.eq_of_getLsbD_eq
  intro i hi
  simp only [functOf, encodeR, BitVec.getLsbD_extractLsb', BitVec.getLsbD_append]
  simp [hi]

@[simp] theorem opcodeOf_encodeI (p : BitVec 6) (rs rt : RegNum) (imm : Half) : opcodeOf (encodeI p rs rt imm) = p := by
  apply BitVec.eq_of_getLsbD_eq
  intro i hi
  simp only [opcodeOf, encodeI, BitVec.getLsbD_extractLsb', BitVec.getLsbD_append]
  simp [show ¬ 26 + i < 16 by omega,
    show ¬ 26 + i - 16 < 5 by omega,
    show ¬ 26 + i - 16 - 5 < 5 by omega,
    show 26 + i - 16 - 5 - 5 = i by omega, hi]

@[simp] theorem rsOf_encodeI (p : BitVec 6) (rs rt : RegNum) (imm : Half) : rsOf (encodeI p rs rt imm) = rs := by
  apply BitVec.eq_of_getLsbD_eq
  intro i hi
  simp only [rsOf, encodeI, BitVec.getLsbD_extractLsb', BitVec.getLsbD_append]
  simp [show ¬ 21 + i < 16 by omega,
    show ¬ 21 + i - 16 < 5 by omega,
    show 21 + i - 16 - 5 = i by omega, hi]

@[simp] theorem rtOf_encodeI (p : BitVec 6) (rs rt : RegNum) (imm : Half) : rtOf (encodeI p rs rt imm) = rt := by
  apply BitVec.eq_of_getLsbD_eq
  intro i hi
  simp only [rtOf, encodeI, BitVec.getLsbD_extractLsb', BitVec.getLsbD_append]
  simp [show ¬ 16 + i < 16 by omega,
    show 16 + i - 16 = i by omega, hi]

@[simp] theorem immOf_encodeI (p : BitVec 6) (rs rt : RegNum) (imm : Half) : immOf (encodeI p rs rt imm) = imm := by
  apply BitVec.eq_of_getLsbD_eq
  intro i hi
  simp only [immOf, encodeI, BitVec.getLsbD_extractLsb', BitVec.getLsbD_append]
  simp [hi]

/-! ## A word is its fields -/

/-- An R-format word is its six fields (R51, R52). -/
theorem fields_R (w : Word) :
    opcodeOf w ++ rsOf w ++ rtOf w ++ rdOf w ++ shamtOf w ++ functOf w = w := by
  apply BitVec.eq_of_getLsbD_eq
  intro i hi
  simp only [opcodeOf, rsOf, rtOf, rdOf, shamtOf, functOf, BitVec.getLsbD_append, BitVec.getLsbD_extractLsb']
  by_cases h1 : i < 6
  · simp [h1]
  by_cases h2 : i < 11
  · simp [h1, show i - 6 < 5 by omega, show 6 + (i - 6) = i by omega]
  by_cases h3 : i < 16
  · simp [h1, show ¬ i - 6 < 5 by omega, show i - 6 - 5 < 5 by omega, show 11 + (i - 6 - 5) = i by omega]
  by_cases h4 : i < 21
  · simp [h1, show ¬ i - 6 < 5 by omega, show ¬ i - 6 - 5 < 5 by omega, show i - 6 - 5 - 5 < 5 by omega,
      show 16 + (i - 6 - 5 - 5) = i by omega]
  by_cases h5 : i < 26
  · simp [h1, show ¬ i - 6 < 5 by omega, show ¬ i - 6 - 5 < 5 by omega, show ¬ i - 6 - 5 - 5 < 5 by omega,
      show i - 6 - 5 - 5 - 5 < 5 by omega, show 21 + (i - 6 - 5 - 5 - 5) = i by omega]
  · simp [h1, show ¬ i - 6 < 5 by omega, show ¬ i - 6 - 5 < 5 by omega, show ¬ i - 6 - 5 - 5 < 5 by omega,
      show ¬ i - 6 - 5 - 5 - 5 < 5 by omega, show i - 6 - 5 - 5 - 5 - 5 < 6 by omega,
      show 26 + (i - 6 - 5 - 5 - 5 - 5) = i by omega]

/-- An I-format word is its four fields (R51, R53). -/
theorem fields_I (w : Word) : opcodeOf w ++ rsOf w ++ rtOf w ++ immOf w = w := by
  apply BitVec.eq_of_getLsbD_eq
  intro i hi
  simp only [opcodeOf, rsOf, rtOf, immOf, BitVec.getLsbD_append, BitVec.getLsbD_extractLsb']
  by_cases h1 : i < 16
  · simp [h1]
  by_cases h2 : i < 21
  · simp [h1, show i - 16 < 5 by omega, show 16 + (i - 16) = i by omega]
  by_cases h3 : i < 26
  · simp [h1, show ¬ i - 16 < 5 by omega, show i - 16 - 5 < 5 by omega, show 21 + (i - 16 - 5) = i by omega]
  · simp [h1, show ¬ i - 16 < 5 by omega, show ¬ i - 16 - 5 < 5 by omega, show i - 16 - 5 - 5 < 6 by omega,
      show 26 + (i - 16 - 5 - 5) = i by omega]

/-! ## What the masks test (R56) -/

/-- Masking distributes over the fields of a word. -/
theorem and_fields_R (o o' f f' : BitVec 6) (a a' b b' c c' d d' : BitVec 5) :
    (o ++ a ++ b ++ c ++ d ++ f) &&& (o' ++ a' ++ b' ++ c' ++ d' ++ f') =
      (o &&& o') ++ (a &&& a') ++ (b &&& b') ++ (c &&& c') ++ (d &&& d') ++ (f &&& f') := by
  simp only [BitVec.and_append]

/-- Masking distributes over the fields of a word. -/
theorem and_fields_I (o o' : BitVec 6) (a a' b b' : BitVec 5) (i i' : Half) :
    (o ++ a ++ b ++ i) &&& (o' ++ a' ++ b' ++ i') =
      (o &&& o') ++ (a &&& a') ++ (b &&& b') ++ (i &&& i') := by
  simp only [BitVec.and_append]

/-- The R-format mask keeps opcode and funct. -/
theorem and_maskR (w : Word) :
    w &&& 0xFC00003F#32 = opcodeOf w ++ 0#5 ++ 0#5 ++ 0#5 ++ 0#5 ++ functOf w := by
  conv_lhs => rw [← fields_R w, show (0xFC00003F#32 : Word) = 0x3F#6 ++ 0#5 ++ 0#5 ++ 0#5 ++ 0#5 ++ 0x3F#6 from by decide,
    and_fields_R]
  simp only [BitVec.and_zero, show (0x3F#6 : BitVec 6) = BitVec.allOnes 6 from by decide, BitVec.and_allOnes]

/-- The I-format mask keeps the opcode. -/
theorem and_maskI (w : Word) : w &&& 0xFC000000#32 = opcodeOf w ++ 0#5 ++ 0#5 ++ 0#16 := by
  conv_lhs => rw [← fields_I w, show (0xFC000000#32 : Word) = 0x3F#6 ++ 0#5 ++ 0#5 ++ 0#16 from by decide,
    and_fields_I]
  simp only [BitVec.and_zero, show (0x3F#6 : BitVec 6) = BitVec.allOnes 6 from by decide, BitVec.and_allOnes]

@[simp] theorem functOf_and_maskR (w : Word) : functOf (w &&& 0xFC00003F#32) = functOf w := by
  apply BitVec.eq_of_getLsbD_eq
  intro i hi
  simp only [functOf, BitVec.getLsbD_extractLsb', BitVec.getLsbD_and]
  interval_cases i <;> simp

@[simp] theorem opcodeOf_and_maskR (w : Word) : opcodeOf (w &&& 0xFC00003F#32) = opcodeOf w := by
  apply BitVec.eq_of_getLsbD_eq
  intro i hi
  simp only [opcodeOf, BitVec.getLsbD_extractLsb', BitVec.getLsbD_and]
  interval_cases i <;> simp

@[simp] theorem opcodeOf_and_maskI (w : Word) : opcodeOf (w &&& 0xFC000000#32) = opcodeOf w := by
  apply BitVec.eq_of_getLsbD_eq
  intro i hi
  simp only [opcodeOf, BitVec.getLsbD_extractLsb', BitVec.getLsbD_and]
  interval_cases i <;> simp

/-- A word matches an R-format row exactly when its opcode and funct are the row's. -/
theorem maskR_iff (w : Word) {m : Word} (hm : m &&& 0xFC00003F#32 = m) :
    w &&& 0xFC00003F#32 = m ↔ opcodeOf w = opcodeOf m ∧ functOf w = functOf m := by
  constructor
  · rintro rfl
    exact ⟨(opcodeOf_and_maskR w).symm, (functOf_and_maskR w).symm⟩
  · rintro ⟨h1, h2⟩
    rw [and_maskR, h1, h2, ← and_maskR, hm]

/-- A word matches an I-format row exactly when its opcode is the row's. -/
theorem maskI_iff (w : Word) {m : Word} (hm : m &&& 0xFC000000#32 = m) :
    w &&& 0xFC000000#32 = m ↔ opcodeOf w = opcodeOf m := by
  constructor
  · rintro rfl
    exact (opcodeOf_and_maskI w).symm
  · intro h1
    rw [and_maskI, h1, ← and_maskI, hm]

/-! ## Words with equal fields -/

/-- Joined patterns are equal exactly when their parts are. -/
theorem append_inj {n m : Nat} (a a' : BitVec n) (b b' : BitVec m) :
    a ++ b = a' ++ b' ↔ a = a' ∧ b = b' := by
  constructor
  · intro h
    constructor
    · simpa [BitVec.extractLsb'_append_eq_left] using congrArg (fun x => x.extractLsb' m n) h
    · simpa [BitVec.extractLsb'_append_eq_right] using congrArg (fun x => x.extractLsb' 0 m) h
  · rintro ⟨rfl, rfl⟩
    rfl

/-- R-format words are equal exactly when their fields are. -/
theorem fields_R_inj (o o' f f' : BitVec 6) (a a' b b' c c' d d' : BitVec 5) :
    ((o ++ a ++ b ++ c ++ d ++ f : Word) = o' ++ a' ++ b' ++ c' ++ d' ++ f') ↔
      o = o' ∧ a = a' ∧ b = b' ∧ c = c' ∧ d = d' ∧ f = f' := by
  simp only [append_inj, and_assoc]

/-! ## The shift-and-or formulas (R57) -/

theorem encodeR_eq (f : BitVec 6) (rd rs rt : RegNum) :
    encodeR f rd rs rt = Machine.wordR (f.setWidth 32) rd rs rt := by
  apply BitVec.eq_of_getLsbD_eq
  intro i hi
  simp only [encodeR, Machine.wordR, BitVec.getLsbD_append, BitVec.getLsbD_or, BitVec.getLsbD_shiftLeft,
    BitVec.getLsbD_setWidth]
  interval_cases i <;> simp

theorem encodeI_eq (f : BitVec 6) (rs rt : RegNum) (imm : Half) :
    encodeI f rs rt imm = Machine.wordI (f.setWidth 32) rs rt imm := by
  apply BitVec.eq_of_getLsbD_eq
  intro i hi
  simp only [encodeI, Machine.wordI, BitVec.getLsbD_append, BitVec.getLsbD_or, BitVec.getLsbD_shiftLeft,
    BitVec.getLsbD_setWidth]
  interval_cases i <;> simp

/-! ## The decoder, row by row -/

/-- Under opcode 0 the decoder dispatches on funct (R55). -/
theorem decode_R {w : Word} (h : opcodeOf w = 0#6) : decode w = decodeR w := if_pos h

/-- Under any other opcode the decoder dispatches on the opcode (R55). -/
theorem decode_I {w : Word} (h : opcodeOf w ≠ 0#6) : decode w = decodeI w := if_neg h

/-- A word that matches an R-format row is decoded by its funct. -/
theorem decode_of_maskR {w m : Word} (h : w &&& 0xFC00003F#32 = m) (h0 : opcodeOf m = 0#6) :
    decode w = decodeR w ∧ functOf w = functOf m := by
  subst h
  rw [opcodeOf_and_maskR] at h0
  exact ⟨decode_R h0, (functOf_and_maskR w).symm⟩

/-- A word that matches an I-format row is decoded by its opcode. -/
theorem decode_of_maskI {w m : Word} (h : w &&& 0xFC000000#32 = m) (h0 : opcodeOf m ≠ 0#6) :
    decode w = decodeI w ∧ opcodeOf w = opcodeOf m := by
  subst h
  rw [opcodeOf_and_maskI] at h0
  exact ⟨decode_I h0, (opcodeOf_and_maskI w).symm⟩

/-- A word that decodes does so in one of the two formats. -/
theorem decode_ok_cases {w : Word} {i : Instr} (h : decode w = .ok i) :
    (opcodeOf w = 0#6 ∧ decodeR w = .ok i) ∨ (opcodeOf w ≠ 0#6 ∧ decodeI w = .ok i) := by
  by_cases h0 : opcodeOf w = 0#6
  · exact .inl ⟨h0, (decode_R h0).symm.trans h⟩
  · exact .inr ⟨h0, (decode_I h0).symm.trans h⟩

end Sys2Proof
end

