-- ==== Sys2Proof/Laws/Exec.lean ====
section
/-! SUPPORT. What an instruction and a cycle can do, each said once: later proofs cite `exec_cases` and `step_cases` and
unfold no meaning. -/

namespace Sys2Proof.Machine

/-- A memory fault that tells the truth about its address in this state (60_exceptions.md R131, R132). -/
def MemFault.Fits (s : State) (f : MemFault) : Prop :=
  (f.kind = .unaligned ∧ f.addr.toNat % 4 ≠ 0) ∨
    (f.kind = .outOfBounds ∧ f.addr.toNat % 4 = 0 ∧ s.cfg.memBytes ≤ f.addr.toNat)

/-- The three things a load can do. -/
theorem execLw_cases (rt rs : RegNum) (imm : Half) (s : State) :
    (∃ f, f.addr = effAddr (s.readReg rs) imm ∧ f.Fits s ∧ execLw rt rs imm s = .next (s.raiseMem f)) ∨
      ((effAddr (s.readReg rs) imm).toNat % 4 = 0 ∧ effAddr (s.readReg rs) imm = s.cfg.stdinAddr ∧
        execLw rt rs imm s = .next (s.consoleIn.2.writeReg rt s.consoleIn.1)) ∨
      ((effAddr (s.readReg rs) imm).toNat % 4 = 0 ∧ effAddr (s.readReg rs) imm ≠ s.cfg.stdinAddr ∧
        (effAddr (s.readReg rs) imm).toNat < s.cfg.memBytes ∧
        execLw rt rs imm s = .next (s.writeReg rt (s.wordAt (effAddr (s.readReg rs) imm).toNat))) := by
  unfold execLw
  obtain ⟨h, e⟩ | ⟨h, hp, e⟩ | ⟨h, _, hb, e⟩ | ⟨h, hp, hb, e⟩ := s.memRead_cases (effAddr (s.readReg rs) imm)
  · exact .inl ⟨_, rfl, .inl ⟨rfl, h⟩, by rw [e]⟩
  · exact .inr (.inl ⟨h, hp, by rw [e]⟩)
  · exact .inl ⟨_, rfl, .inr ⟨rfl, h, hb⟩, by rw [e]⟩
  · exact .inr (.inr ⟨h, hp, hb, by rw [e]⟩)

/-- The three things a store can do. -/
theorem execSw_cases (rt rs : RegNum) (imm : Half) (s : State) :
    (∃ f, f.addr = effAddr (s.readReg rs) imm ∧ f.Fits s ∧ execSw rt rs imm s = .next (s.raiseMem f)) ∨
      ((effAddr (s.readReg rs) imm).toNat % 4 = 0 ∧ effAddr (s.readReg rs) imm = s.cfg.stdoutAddr ∧
        execSw rt rs imm s = .next (s.consoleOut ((s.readReg rt).extractLsb' 0 8))) ∨
      ((effAddr (s.readReg rs) imm).toNat % 4 = 0 ∧ effAddr (s.readReg rs) imm ≠ s.cfg.stdoutAddr ∧
        (effAddr (s.readReg rs) imm).toNat < s.cfg.memBytes ∧
        execSw rt rs imm s = .next (s.setWord (effAddr (s.readReg rs) imm).toNat (s.readReg rt))) := by
  unfold execSw
  obtain ⟨h, e⟩ | ⟨h, hp, e⟩ | ⟨h, _, hb, e⟩ | ⟨h, hp, hb, e⟩ :=
    s.memWrite_cases (effAddr (s.readReg rs) imm) (s.readReg rt)
  · exact .inl ⟨_, rfl, .inl ⟨rfl, h⟩, by rw [e]⟩
  · exact .inr (.inl ⟨h, hp, by rw [e]⟩)
  · exact .inl ⟨_, rfl, .inr ⟨rfl, h, hb⟩, by rw [e]⟩
  · exact .inr (.inr ⟨h, hp, hb, by rw [e]⟩)

/-- The two things `lis` can do. -/
theorem execLis_cases (rd : RegNum) (s : State) :
    (∃ f, f.addr = s.pc ∧ f.Fits s ∧ execLis rd s = .next (s.raiseMem f)) ∨
      (s.fetchable ∧ execLis rd s = .next (s.writeReg rd (s.wordAt s.pc.toNat)).advance) := by
  unfold execLis
  obtain ⟨h, e⟩ | ⟨h, hb, e⟩ | ⟨h, hb, e⟩ := s.fetchWord_cases s.pc
  · exact .inl ⟨_, rfl, .inl ⟨rfl, h⟩, by rw [e]⟩
  · exact .inl ⟨_, rfl, .inr ⟨rfl, h, hb⟩, by rw [e]⟩
  · exact .inr ⟨⟨h, hb⟩, by rw [e]⟩

/-- The two things a branch can do. -/
theorem branchIf_cases (c : Bool) (imm : Half) (s : State) :
    (c = true ∧ branchIf c imm s = .next (s.setPc (branchTarget s.pc imm))) ∨
      (c = false ∧ branchIf c imm s = .next s) := by
  cases c
  · exact .inr ⟨rfl, rfl⟩
  · exact .inl ⟨rfl, rfl⟩

/-- Everything an instruction can do, by the kind of its effect (40_step.md R83; 60_exceptions.md R130):
it writes its destination register, or HI and LO, or the pc, or the register and the pc, or one word of memory, or
appends to the output, or consumes input, or halts the core on a memory fault, or does nothing. -/
theorem exec_cases {i : Instr} {s t : State} (h : exec i s = .next t) :
    (∃ r v, destRegs i = [r] ∧ i.mnemonic ∈ [.add, .sub, .slt, .sltu, .addi, .mfhi, .mflo, .lw] ∧ t = s.writeReg r v) ∨
    (∃ v, i.mnemonic ∈ [.mult, .multu, .div, .divu] ∧ t = s.setHiLo v) ∨
    (∃ rs, i = .jr rs ∧ t = s.setPc (s.readReg rs)) ∨
    (∃ rs, i = .jalr rs ∧ t = (s.writeReg linkReg s.pc).setPc (s.readReg rs)) ∨
    (∃ rs rt imm, (i = .beq rs rt imm ∨ i = .bne rs rt imm) ∧ (t = s ∨ t = s.setPc (branchTarget s.pc imm))) ∨
    (∃ rd, i = .lis rd ∧ s.fetchable ∧ t = (s.writeReg rd (s.wordAt s.pc.toNat)).advance) ∨
    (∃ rt rs imm, i = .lw rt rs imm ∧ effAddr (s.readReg rs) imm = s.cfg.stdinAddr ∧
      t = s.consoleIn.2.writeReg rt s.consoleIn.1) ∨
    (∃ rt rs imm, i = .sw rt rs imm ∧ effAddr (s.readReg rs) imm = s.cfg.stdoutAddr ∧
      t = s.consoleOut ((s.readReg rt).extractLsb' 0 8)) ∨
    (∃ rt rs imm, i = .sw rt rs imm ∧ (effAddr (s.readReg rs) imm).toNat % 4 = 0 ∧
      effAddr (s.readReg rs) imm ≠ s.cfg.stdoutAddr ∧ (effAddr (s.readReg rs) imm).toNat < s.cfg.memBytes ∧
      t = s.setWord (effAddr (s.readReg rs) imm).toNat (s.readReg rt)) ∨
    (∃ f, i.mnemonic ∈ [.lis, .lw, .sw] ∧
      ((∃ rd, i = .lis rd ∧ f.addr = s.pc) ∨
        ∃ rt rs imm, (i = .lw rt rs imm ∨ i = .sw rt rs imm) ∧ f.addr = effAddr (s.readReg rs) imm) ∧
      f.Fits s ∧ t = s.raiseMem f) := by
  cases i with
  | add rd rs rt => cases h; exact .inl ⟨_, _, rfl, by simp [Instr.mnemonic], rfl⟩
  | sub rd rs rt => cases h; exact .inl ⟨_, _, rfl, by simp [Instr.mnemonic], rfl⟩
  | slt rd rs rt => cases h; exact .inl ⟨_, _, rfl, by simp [Instr.mnemonic], rfl⟩
  | sltu rd rs rt => cases h; exact .inl ⟨_, _, rfl, by simp [Instr.mnemonic], rfl⟩
  | addi rt rs imm => cases h; exact .inl ⟨_, _, rfl, by simp [Instr.mnemonic], rfl⟩
  | mfhi rd => cases h; exact .inl ⟨_, _, rfl, by simp [Instr.mnemonic], rfl⟩
  | mflo rd => cases h; exact .inl ⟨_, _, rfl, by simp [Instr.mnemonic], rfl⟩
  | mult rs rt => cases h; exact .inr (.inl ⟨_, by simp [Instr.mnemonic], rfl⟩)
  | multu rs rt => cases h; exact .inr (.inl ⟨_, by simp [Instr.mnemonic], rfl⟩)
  | div rs rt => cases h; exact .inr (.inl ⟨_, by simp [Instr.mnemonic], rfl⟩)
  | divu rs rt => cases h; exact .inr (.inl ⟨_, by simp [Instr.mnemonic], rfl⟩)
  | jr rs => cases h; exact .inr (.inr (.inl ⟨_, rfl, rfl⟩))
  | jalr rs => cases h; exact .inr (.inr (.inr (.inl ⟨_, rfl, rfl⟩)))
  | beq rs rt imm =>
    refine .inr (.inr (.inr (.inr (.inl ⟨rs, rt, imm, .inl rfl, ?_⟩))))
    obtain ⟨_, e⟩ | ⟨_, e⟩ := branchIf_cases (eqWord (s.readReg rs) (s.readReg rt)) imm s <;>
      cases e.symm.trans h
    · exact .inr rfl
    · exact .inl rfl
  | bne rs rt imm =>
    refine .inr (.inr (.inr (.inr (.inl ⟨rs, rt, imm, .inr rfl, ?_⟩))))
    obtain ⟨_, e⟩ | ⟨_, e⟩ := branchIf_cases (!eqWord (s.readReg rs) (s.readReg rt)) imm s <;>
      cases e.symm.trans h
    · exact .inr rfl
    · exact .inl rfl
  | lis rd =>
    obtain ⟨f, ha, hf, e⟩ | ⟨hf, e⟩ := execLis_cases rd s <;> cases e.symm.trans h
    · exact .inr (.inr (.inr (.inr (.inr (.inr (.inr (.inr (.inr ⟨f, by simp [Instr.mnemonic], .inl ⟨rd, rfl, ha⟩,
      hf, rfl⟩))))))))
    · exact .inr (.inr (.inr (.inr (.inr (.inl ⟨rd, rfl, hf, rfl⟩)))))
  | lw rt rs imm =>
    obtain ⟨f, ha, hf, e⟩ | ⟨_, hp, e⟩ | ⟨_, _, _, e⟩ := execLw_cases rt rs imm s <;> cases e.symm.trans h
    · exact .inr (.inr (.inr (.inr (.inr (.inr (.inr (.inr (.inr ⟨f, by simp [Instr.mnemonic], .inr ⟨rt, rs, imm, .inl rfl, ha⟩,
      hf, rfl⟩))))))))
    · exact .inr (.inr (.inr (.inr (.inr (.inr (.inl ⟨rt, rs, imm, rfl, hp, rfl⟩))))))
    · exact .inl ⟨_, _, rfl, by simp [Instr.mnemonic], rfl⟩
  | sw rt rs imm =>
    obtain ⟨f, ha, hf, e⟩ | ⟨_, hp, e⟩ | ⟨ha, hp, hb, e⟩ := execSw_cases rt rs imm s <;> cases e.symm.trans h
    · exact .inr (.inr (.inr (.inr (.inr (.inr (.inr (.inr (.inr ⟨f, by simp [Instr.mnemonic], .inr ⟨rt, rs, imm, .inr rfl, ha⟩,
      hf, rfl⟩))))))))
    · exact .inr (.inr (.inr (.inr (.inr (.inr (.inr (.inl ⟨rt, rs, imm, rfl, hp, rfl⟩)))))))
    · exact .inr (.inr (.inr (.inr (.inr (.inr (.inr (.inr (.inl ⟨rt, rs, imm, rfl, ha, hp, hb, rfl⟩))))))))

/-- A running core with no stop request fetches (40_step.md R80). -/
theorem step_running {s : State} (h : s.runState = .running) (h2 : s.stopFlag = false) :
    step s = fetchDecodeExecute s := by
  simp only [step, cycle, h, h2, Bool.false_eq_true, if_false]

/-- A running core with a stop request halts (R80). -/
theorem step_stopping {s : State} (h : s.runState = .running) (h2 : s.stopFlag = true) :
    step s = .next s.haltStop := by
  simp only [step, cycle, h, h2, if_true]

/-- A halted core stays as it is (R80). -/
theorem step_halted {s : State} (h : s.runState = .halted) : step s = .next s := by
  simp only [step, cycle, h]

/-- Everything a cycle can do, in the order of its tests (60_exceptions.md R138). -/
theorem step_cases {s t : State} (h : step s = .next t) :
    (s.runState = .halted ∧ t = s) ∨
    (s.runState = .running ∧ s.stopFlag = true ∧ t = s.haltStop) ∨
    (s.runState = .running ∧ s.stopFlag = false ∧ ¬s.fetchable ∧
      ∃ f, f.Fits s ∧ f.addr = s.pc ∧ t = s.raiseMem f) ∨
    (s.runState = .running ∧ s.stopFlag = false ∧ s.fetchable ∧
      ∃ e, decode (s.wordAt s.pc.toNat) = .error e ∧ t = s.advance.raise .decodeError (s.wordAt s.pc.toNat)) ∨
    (s.runState = .running ∧ s.stopFlag = false ∧ s.fetchable ∧
      ∃ i, decode (s.wordAt s.pc.toNat) = .ok i ∧ exec i s.advance = .next t) := by
  unfold step cycle at h
  cases hr : s.runState with
  | halted => rw [hr] at h; cases h; exact .inl ⟨rfl, rfl⟩
  | running =>
    rw [hr] at h
    cases hs : s.stopFlag with
    | true => rw [hs] at h; cases h; exact .inr (.inl ⟨rfl, rfl, rfl⟩)
    | false =>
      rw [hs] at h
      simp only [Bool.false_eq_true, if_false, fetchDecodeExecute] at h
      obtain ⟨ha, e⟩ | ⟨ha, hb, e⟩ | ⟨ha, hb, e⟩ := s.fetchWord_cases s.pc <;> rw [e] at h
      · cases h
        exact .inr (.inr (.inl ⟨rfl, rfl, fun hf => ha hf.1, _, .inl ⟨rfl, ha⟩, rfl, rfl⟩))
      · cases h
        exact .inr (.inr (.inl ⟨rfl, rfl, fun hf => absurd hf.2 (Nat.not_lt.mpr hb), _, .inr ⟨rfl, ha, hb⟩, rfl, rfl⟩))
      · cases hd : decode (s.wordAt s.pc.toNat) with
        | error e =>
          simp only [hd] at h; cases h
          exact .inr (.inr (.inr (.inl ⟨rfl, rfl, ⟨ha, hb⟩, e, rfl, rfl⟩)))
        | ok i =>
          simp only [hd] at h
          exact .inr (.inr (.inr (.inr ⟨rfl, rfl, ⟨ha, hb⟩, i, rfl, h⟩)))

end Sys2Proof.Machine
end

