-- ==== Sys2Proof/Laws/Frames.lean ====
section
/-! SUPPORT. What the operations that meanings are built of leave unchanged, in the terms of Safety. -/

namespace Sys2Proof.Machine

theorem onlyReg_writeReg (s : State) (r : RegNum) (v : Word) : OnlyReg r s (s.writeReg r v) :=
  ⟨fun _ hq => State.readReg_writeReg_ne _ _ (by simpa using hq), ⟨by simp, by simp⟩, by simp,
    fun a => State.byteAt_congr (by simp) (by simp) a, ⟨by simp, by simp⟩, ⟨by simp, by simp, by simp, by simp⟩, by simp⟩

theorem onlyHiLo_setHiLo (s : State) (v : HiLo) : OnlyHiLo s (s.setHiLo v) :=
  ⟨fun _ _ => rfl, rfl, fun _ => rfl, ⟨rfl, rfl⟩, ⟨rfl, rfl, rfl, rfl⟩, rfl⟩

theorem onlyPc_setPc (s : State) (v : Word) : OnlyPcAndRegs [] s (s.setPc v) :=
  ⟨fun _ _ => rfl, ⟨rfl, rfl⟩, fun _ => rfl, ⟨rfl, rfl⟩, ⟨rfl, rfl, rfl, rfl⟩, rfl⟩

theorem onlyPc_refl (l : List RegNum) (s : State) : OnlyPcAndRegs l s s :=
  ⟨fun _ _ => rfl, ⟨rfl, rfl⟩, fun _ => rfl, ⟨rfl, rfl⟩, ⟨rfl, rfl, rfl, rfl⟩, rfl⟩

theorem onlyPcAndReg_writeReg_setPc (s : State) (r : RegNum) (v p : Word) :
    OnlyPcAndRegs [r] s ((s.writeReg r v).setPc p) := by
  obtain ⟨a1, a2, _, a4, a5, a6, a7⟩ := onlyReg_writeReg s r v
  exact ⟨a1, a2, a4, a5, a6, a7⟩

theorem sameProgramState_raise (s : State) (c : HaltCause) (i : Word) : SameProgramState s (s.raise c i) :=
  ⟨fun _ _ => rfl, ⟨rfl, rfl⟩, rfl, fun _ => rfl, ⟨rfl, rfl⟩, rfl⟩

theorem haltedWith_raise (s : State) (c : HaltCause) (i : Word) : HaltedWith c i s (s.raise c i) :=
  ⟨rfl, rfl, rfl, rfl⟩

theorem haltedWith_raiseMem (s : State) (f : MemFault) :
    HaltedWith (.memoryFault f.kind) f.addr s (s.raiseMem f) :=
  ⟨rfl, rfl, rfl, rfl⟩

theorem sameProgramState_raiseMem (s : State) (f : MemFault) : SameProgramState s (s.raiseMem f) :=
  sameProgramState_raise s _ _

/-- A store changes no byte outside its word (20_memory.md R34). -/
theorem sameMemoryExceptWord_setWord (s : State) (a : Nat) (v : Word) :
    SameMemoryExceptWord a s (s.setWord a v) :=
  fun _ hb => State.byteAt_setWord_ne _ _ hb

end Sys2Proof.Machine
end

