-- ==== Sys2Proof/Laws/Operands.lean ====
section
/-! SUPPORT. The operand forms as integer arithmetic (30_encoding.md R58; 44_control.md R115; 45_loadstore.md R125). -/

namespace Sys2Proof.Machine

@[simp] theorem sext16_toInt (imm : Half) : (sext16 imm).toInt = imm.toInt :=
  BitVec.toInt_signExtend_of_le (by omega)

/-- A word plus a signed number, as integers modulo 2^32. -/
theorem add_toNat_of_toInt (a b : Word) : ((a + b).toNat : Int) = ((a.toNat : Int) + b.toInt) % 2 ^ 32 := by
  rw [BitVec.toNat_add, BitVec.toInt_eq_toNat_cond]
  split <;> omega

/-- An effective address is the base plus the signed displacement, modulo 2^32 (R125). -/
theorem effAddr_toNat (a : Word) (imm : Half) :
    ((effAddr a imm).toNat : Int) = ((a.toNat : Int) + imm.toInt) % 2 ^ 32 := by
  rw [effAddr, add_toNat_of_toInt, sext16_toInt]

/-- Four times a 16-bit signed number fits a word. -/
theorem branchDisp_toInt (imm : Half) : (branchDisp imm).toInt = 4 * imm.toInt := by
  have h1 := BitVec.le_toInt imm
  have h2 := BitVec.toInt_lt (x := imm)
  rw [branchDisp, sext16_toInt, BitVec.toInt_ofInt, Int.bmod_eq_of_le] <;> norm_num at * <;> omega

/-- A branch target is the advanced pc plus four times the signed offset, modulo 2^32 (R115). -/
theorem branchTarget_toNat (pc : Word) (imm : Half) :
    ((branchTarget pc imm).toNat : Int) = ((pc.toNat : Int) + 4 * imm.toInt) % 2 ^ 32 := by
  rw [branchTarget, add_toNat_of_toInt, branchDisp_toInt]

end Sys2Proof.Machine
end

