-- ==== Sys2Proof/Laws/PerInstr.lean ====
section
/-! SUPPORT. The family `Encoding`, one lemma per instruction: the canonical word of an instruction matches its row of the
opcode map under the row's mask, and every field the instruction ignores is zero in it (30_encoding.md R56, R57, R60,
R61). -/

namespace Sys2Proof.Laws.Encoding

/-- The canonical word of `i` lies in `i`'s row and leaves the ignored fields zero. -/
def Statement (i : Instr) : Prop :=
  encode i &&& i.mnemonic.decodeMask = i.mnemonic.matchWord ∧ encode i &&& i.mnemonic.ignoredMask = 0#32

/-- An R-format word matches its row under the R-format mask. -/
theorem encodeR_row (f : BitVec 6) (rd rs rt : RegNum) :
    encodeR f rd rs rt &&& 0xFC00003F#32 = 0#26 ++ f := by
  rw [and_maskR, opcodeOf_encodeR, functOf_encodeR]
  apply BitVec.eq_of_getLsbD_eq
  intro i hi
  simp only [BitVec.getLsbD_append]
  split <;> simp

/-- An I-format word matches its row under the I-format mask. -/
theorem encodeI_row (p : BitVec 6) (rs rt : RegNum) (imm : Half) :
    encodeI p rs rt imm &&& 0xFC000000#32 = p ++ 0#26 := by
  rw [and_maskI, opcodeOf_encodeI]
  apply BitVec.eq_of_getLsbD_eq
  intro i hi
  simp only [BitVec.getLsbD_append]
  interval_cases i <;> simp

/-- In an R-format word the shamt field is zero. -/
theorem encodeR_shamt (f : BitVec 6) (rd rs rt : RegNum) : encodeR f rd rs rt &&& 0x000007C0#32 = 0#32 := by
  rw [encodeR, show (0x000007C0#32 : Word) = 0#6 ++ 0#5 ++ 0#5 ++ 0#5 ++ 0x1F#5 ++ 0#6 from by decide, and_fields_R]
  simp only [BitVec.and_zero, BitVec.zero_and]
  decide

/-- With `rd` zero, `rd` and shamt are zero. -/
theorem encodeR_rd_shamt (f : BitVec 6) (rs rt : RegNum) : encodeR f 0#5 rs rt &&& 0x0000FFC0#32 = 0#32 := by
  rw [encodeR, show (0x0000FFC0#32 : Word) = 0#6 ++ 0#5 ++ 0#5 ++ 0x1F#5 ++ 0x1F#5 ++ 0#6 from by decide, and_fields_R]
  simp only [BitVec.and_zero, BitVec.zero_and]
  decide

/-- With `rs` and `rt` zero, `rs`, `rt` and shamt are zero. -/
theorem encodeR_rs_rt_shamt (f : BitVec 6) (rd : RegNum) : encodeR f rd 0#5 0#5 &&& 0x03FF07C0#32 = 0#32 := by
  rw [encodeR, show (0x03FF07C0#32 : Word) = 0#6 ++ 0x1F#5 ++ 0x1F#5 ++ 0#5 ++ 0x1F#5 ++ 0#6 from by decide, and_fields_R]
  simp only [BitVec.and_zero, BitVec.zero_and]
  decide

/-- With `rt` and `rd` zero, `rt`, `rd` and shamt are zero. -/
theorem encodeR_rt_rd_shamt (f : BitVec 6) (rs : RegNum) : encodeR f 0#5 rs 0#5 &&& 0x001FFFC0#32 = 0#32 := by
  rw [encodeR, show (0x001FFFC0#32 : Word) = 0#6 ++ 0#5 ++ 0x1F#5 ++ 0x1F#5 ++ 0x1F#5 ++ 0#6 from by decide, and_fields_R]
  simp only [BitVec.and_zero, BitVec.zero_and]
  decide

theorem add (rd rs rt : RegNum) : Statement (.add rd rs rt) :=
  ⟨(encodeR_row _ _ _ _).trans rfl, encodeR_shamt _ _ _ _⟩

theorem sub (rd rs rt : RegNum) : Statement (.sub rd rs rt) :=
  ⟨(encodeR_row _ _ _ _).trans rfl, encodeR_shamt _ _ _ _⟩

theorem slt (rd rs rt : RegNum) : Statement (.slt rd rs rt) :=
  ⟨(encodeR_row _ _ _ _).trans rfl, encodeR_shamt _ _ _ _⟩

theorem sltu (rd rs rt : RegNum) : Statement (.sltu rd rs rt) :=
  ⟨(encodeR_row _ _ _ _).trans rfl, encodeR_shamt _ _ _ _⟩

theorem mult (rs rt : RegNum) : Statement (.mult rs rt) :=
  ⟨(encodeR_row _ _ _ _).trans rfl, encodeR_rd_shamt _ _ _⟩

theorem multu (rs rt : RegNum) : Statement (.multu rs rt) :=
  ⟨(encodeR_row _ _ _ _).trans rfl, encodeR_rd_shamt _ _ _⟩

theorem div (rs rt : RegNum) : Statement (.div rs rt) :=
  ⟨(encodeR_row _ _ _ _).trans rfl, encodeR_rd_shamt _ _ _⟩

theorem divu (rs rt : RegNum) : Statement (.divu rs rt) :=
  ⟨(encodeR_row _ _ _ _).trans rfl, encodeR_rd_shamt _ _ _⟩

theorem mfhi (rd : RegNum) : Statement (.mfhi rd) :=
  ⟨(encodeR_row _ _ _ _).trans rfl, encodeR_rs_rt_shamt _ _⟩

theorem mflo (rd : RegNum) : Statement (.mflo rd) :=
  ⟨(encodeR_row _ _ _ _).trans rfl, encodeR_rs_rt_shamt _ _⟩

theorem lis (rd : RegNum) : Statement (.lis rd) :=
  ⟨(encodeR_row _ _ _ _).trans rfl, encodeR_rs_rt_shamt _ _⟩

theorem jr (rs : RegNum) : Statement (.jr rs) :=
  ⟨(encodeR_row _ _ _ _).trans rfl, encodeR_rt_rd_shamt _ _⟩

theorem jalr (rs : RegNum) : Statement (.jalr rs) :=
  ⟨(encodeR_row _ _ _ _).trans rfl, encodeR_rt_rd_shamt _ _⟩

theorem addi (rt rs : RegNum) (imm : Half) : Statement (.addi rt rs imm) :=
  ⟨(encodeI_row _ _ _ _).trans rfl, BitVec.and_zero⟩

theorem beq (rs rt : RegNum) (imm : Half) : Statement (.beq rs rt imm) :=
  ⟨(encodeI_row _ _ _ _).trans rfl, BitVec.and_zero⟩

theorem bne (rs rt : RegNum) (imm : Half) : Statement (.bne rs rt imm) :=
  ⟨(encodeI_row _ _ _ _).trans rfl, BitVec.and_zero⟩

theorem lw (rt rs : RegNum) (imm : Half) : Statement (.lw rt rs imm) :=
  ⟨(encodeI_row _ _ _ _).trans rfl, BitVec.and_zero⟩

theorem sw (rt rs : RegNum) (imm : Half) : Statement (.sw rt rs imm) :=
  ⟨(encodeI_row _ _ _ _).trans rfl, BitVec.and_zero⟩

end Sys2Proof.Laws.Encoding
end

