-- ==== Sys2Proof/Laws/Results.lean ====
section
/-! SUPPORT. Results as integers: the two halves of a product, a sign-extended byte, a low byte. -/

namespace Sys2Proof.Machine

/-- The halves joined are the product (42_muldiv.md R100, R101). -/
@[simp] theorem splitProduct_append (p : BitVec 64) : (splitProduct p).hi ++ (splitProduct p).lo = p := by
  apply BitVec.eq_of_getLsbD_eq
  intro i hi
  simp only [splitProduct, BitVec.getLsbD_append, BitVec.getLsbD_extractLsb']
  by_cases h : i < 32
  · simp [h]
  · simp [h, show i - 32 < 32 by omega, show 32 + (i - 32) = i by omega]

/-- An input byte as the word a load returns (20_memory.md R36). -/
theorem sext8_toNat (b : Byte) :
    (sext8 b).toNat = if b.toNat < 0x80 then b.toNat else 0xFFFFFF00 + b.toNat := by
  revert b
  decide

/-- The byte a store puts out (20_memory.md R37). -/
theorem lowByte_eq (v : Word) : v.extractLsb' 0 8 = BitVec.ofNat 8 (v.toNat % 256) := by
  apply BitVec.eq_of_toNat_eq
  simp

/-- The same byte by truncation. -/
theorem lowByte_eq_setWidth (v : Word) : v.extractLsb' 0 8 = v.setWidth 8 := by
  apply BitVec.eq_of_toNat_eq
  simp

end Sys2Proof.Machine
end

