-- ==== Sys2Proof/Tests/Slice0.lean ====
section
/-! SUPPORT. Tests and witnesses. Expected results are the spec's: the words and states of 95_test_vectors.md and the
examples of the rules. -/

namespace Sys2Proof.Tests

open Sys2Proof.Machine

/-! ## Decoding: a word of each row, written out from the spec's encodings (T-L1-8 of 95_test_vectors.md) -/

theorem test_decode_add : decode 0x00221820#32 = .ok (.add 3 1 2) := rfl
theorem test_decode_sub : decode 0x00221822#32 = .ok (.sub 3 1 2) := rfl
theorem test_decode_slt : decode 0x0022182A#32 = .ok (.slt 3 1 2) := rfl
theorem test_decode_sltu : decode 0x0022182B#32 = .ok (.sltu 3 1 2) := rfl
theorem test_decode_mult : decode 0x00220018#32 = .ok (.mult 1 2) := rfl
theorem test_decode_multu : decode 0x00220019#32 = .ok (.multu 1 2) := rfl
theorem test_decode_div : decode 0x0022001A#32 = .ok (.div 1 2) := rfl
theorem test_decode_divu : decode 0x0022001B#32 = .ok (.divu 1 2) := rfl
theorem test_decode_mfhi : decode 0x00003810#32 = .ok (.mfhi 7) := rfl
theorem test_decode_mflo : decode 0x00003012#32 = .ok (.mflo 6) := rfl
theorem test_decode_lis : decode 0x00000814#32 = .ok (.lis 1) := rfl
theorem test_decode_jr : decode 0x03E00008#32 = .ok (.jr 31) := rfl
theorem test_decode_jalr : decode 0x00A00009#32 = .ok (.jalr 5) := rfl
theorem test_decode_addi : decode 0x2023FFFF#32 = .ok (.addi 3 1 0xFFFF) := rfl
theorem test_decode_beq : decode 0x10220003#32 = .ok (.beq 1 2 3) := rfl
theorem test_decode_bne : decode 0x1422FFFD#32 = .ok (.bne 1 2 0xFFFD) := rfl
theorem test_decode_lw : decode 0x8C230008#32 = .ok (.lw 3 1 8) := rfl
theorem test_decode_sw : decode 0xAFDFFFFC#32 = .ok (.sw 31 30 0xFFFC) := rfl

/-- Bit by bit, `sub $21, $10, $9` (R51, R52, R60): opcode 000000, rs 01010, rt 01001, rd 10101, shamt 00000, funct 100010. -/
theorem test_decode_bits_R : decode 0b00000001010010011010100000100010#32 = .ok (.sub 21 10 9) := rfl

/-- Bit by bit, `sw $21, -32767($10)` (R51, R53, R61): opcode 101011, rs 01010, rt 10101, imm 1000000000000001. -/
theorem test_decode_bits_I : decode 0b10101101010101011000000000000001#32 = .ok (.sw 21 10 0x8001) := rfl

/-- `add $3, $1, $2` with shamt 3: the field is ignored (R56; 95_test_vectors.md). -/
theorem test_decode_ignores_shamt : decode 0x002218E0#32 = .ok (.add 3 1 2) := rfl

/-- The illegal words of 95_test_vectors.md (R62). -/
theorem test_decode_illegal :
    decode 0x00000000#32 = .error (.unknownFunct 0x00) ∧ decode 0x0000000C#32 = .error (.unknownFunct 0x0C) ∧
      decode 0x08000000#32 = .error (.unknownOpcode 0x02) ∧ decode 0x3C010001#32 = .error (.unknownOpcode 0x0F) ∧
      decode 0x00000021#32 = .error (.unknownFunct 0x21) ∧ decode 0xFFFFFFFF#32 = .error (.unknownOpcode 0x3F) :=
  ⟨rfl, rfl, rfl, rfl, rfl, rfl⟩

theorem test_encode_words :
    encode (.add 31 31 31) = 0x03FFF820#32 ∧ encode (.jr 31) = 0x03E00008#32 ∧ encode (.lis 1) = 0x00000814#32 ∧
      encode (.mult 1 2) = 0x00220018#32 ∧ encode (.beq 1 2 3) = 0x10220003#32 ∧
      encode (.sw 2 1 8) = 0xAC220008#32 := by decide

theorem test_decodeTableWord : decodeTableWord 32 0x00221820 = some (.add 3 1 2) ∧ decodeTableWord 32 0 = none :=
  ⟨rfl, rfl⟩

/-! ## Well-formedness: an ill-formed term for each check -/

theorem test_wf_config_default : Config.default.wellFormed = true := by decide
theorem test_wf_config_not_words : ({ Config.default with memBytes := 0x1002 } : Config).wellFormed = false := by decide
theorem test_wf_config_empty : ({ Config.default with memBytes := 0 } : Config).wellFormed = false := by decide
theorem test_wf_config_too_large : ({ Config.default with memBytes := 2 ^ 32 + 4 } : Config).wellFormed = false := by
  decide
theorem test_wf_config_stdin : ({ Config.default with stdinAddr := 0xFFFF0005#32 } : Config).wellFormed = false := by
  decide
theorem test_wf_config_stdout : ({ Config.default with stdoutAddr := 0xFFFF000E#32 } : Config).wellFormed = false := by
  decide
theorem test_wf_config_ports_differ :
    ({ Config.default with stdinAddr := 0xFFFF000C#32 } : Config).wellFormed = false := by decide
theorem test_wf_image : ({ Config.default with memBytes := 4 } : Config).imageFits [1#32] = true ∧
    ({ Config.default with memBytes := 4 } : Config).imageFits [1#32, 2#32] = false := by decide
theorem test_wf_register : regNumberOk 31 = true ∧ regNumberOk 32 = false := by decide

/-- The ranges of T-L1-9. -/
theorem test_wf_immediate :
    (Literal.dec (-32768)).fitsImm = true ∧ (Literal.dec 32767).fitsImm = true ∧ (Literal.hex 0xFFFF).fitsImm = true ∧
      (Literal.dec (-32769)).fitsImm = false ∧ (Literal.dec 32768).fitsImm = false ∧
      (Literal.hex 0x10000).fitsImm = false := by decide

/-- A label 3 instructions ahead fits (T-L1-1); one that is no word away, one too far forward, one too far back do not. -/
theorem test_wf_label :
    (BranchOperand.label 16).fits 0 = true ∧ (BranchOperand.label 18).fits 0 = false ∧
      (BranchOperand.label 0x20004).fits 0 = false ∧ (BranchOperand.label 0).fits 0x20000 = false := by decide
theorem test_wf_branch_literal : (BranchOperand.lit (.dec 40000)).fits 0 = false := by decide

theorem test_wf_word :
    (WordOperand.lit (.dec (-2147483648))).fits = true ∧ (WordOperand.lit (.dec (-2147483649))).fits = false ∧
      (WordOperand.lit (.dec 4294967296)).fits = false ∧ (WordOperand.lit (.hex 0x100000000)).fits = false ∧
      (WordOperand.label 0x100000000).fits = false := by decide

/-- Every form of line with a register 32 in it is refused (R67, T-L1-9). -/
theorem test_wf_lines :
    (AsmLine.reg3 .add 32 1 2).wellFormed 0 = false ∧ (AsmLine.reg3 .add 3 32 2).wellFormed 0 = false ∧
      (AsmLine.reg3 .add 3 1 32).wellFormed 0 = false ∧ (AsmLine.reg2 .mult 32 1).wellFormed 0 = false ∧
      (AsmLine.reg2 .mult 1 32).wellFormed 0 = false ∧ (AsmLine.dest .lis 32).wellFormed 0 = false ∧
      (AsmLine.src .jr 32).wellFormed 0 = false ∧ (AsmLine.addi 32 1 (.dec 0)).wellFormed 0 = false ∧
      (AsmLine.addi 1 32 (.dec 0)).wellFormed 0 = false ∧ (AsmLine.addi 1 1 (.dec 32768)).wellFormed 0 = false ∧
      (AsmLine.branch .beq 32 1 (.lit (.dec 0))).wellFormed 0 = false ∧
      (AsmLine.branch .beq 1 32 (.lit (.dec 0))).wellFormed 0 = false ∧
      (AsmLine.branch .beq 1 1 (.label 2)).wellFormed 0 = false ∧ (AsmLine.mem .lw 32 (.dec 0) 1).wellFormed 0 = false ∧
      (AsmLine.mem .lw 1 (.dec 0) 32).wellFormed 0 = false ∧ (AsmLine.mem .lw 1 (.hex 0x10000) 1).wellFormed 0 = false ∧
      (AsmLine.word (.label 0x100000000)).wellFormed 0 = false := by decide

/-- T-L1-1 and T-L1-9: the words of written lines, and the errors. -/
theorem test_assemble :
    (assemble 0 (.branch .beq 1 0 (.label 16))).toOption = some 0x10200003#32 ∧
      (assemble 0 (.addi 3 1 (.dec (-32768)))).toOption = some 0x20238000#32 ∧
      (assemble 0 (.addi 3 1 (.hex 0xFFFF))).toOption = some 0x2023FFFF#32 ∧
      (assemble 0x1C (.branch .bne 1 0 (.label 0x14))).toOption = some 0x1420FFFD#32 ∧
      (assemble 0 (.mem .sw 31 (.dec (-4)) 30)).toOption = some 0xAFDFFFFC#32 ∧
      (assemble 0 (.word (.lit (.dec (-1))))).toOption = some 0xFFFFFFFF#32 := by decide
theorem test_assemble_errors :
    assemble 0 (.addi 3 1 (.dec 32768)) = .error .immediateRange ∧
      assemble 0 (.dest .lis 32) = .error (.registerRange 32) ∧
      assemble 0 (.branch .beq 1 2 (.label 0x20004)) = .error .branchOffsetOutOfRange ∧
      assemble 0 (.word (.lit (.hex 0x100000000))) = .error .wordRange := ⟨rfl, rfl, rfl, rfl⟩

/-! ## One step of each instruction -/

/-- The reset state with a pc, some registers, some words of memory and some input. -/
def start (pc : Word) (regs : List (RegNum × Word)) (words : List (Nat × Word)) (input : List Byte := []) : State :=
  let s : State := { State.reset with
    pc := pc
    cfg := { Config.default with consoleIn := input } }
  words.foldl (fun s w => s.setWord w.1 w.2) (regs.foldl (fun s r => s.writeReg r.1 r.2) s)

/-- The state after a step; a step never stops, so the other two cases do not arise. -/
def after (s : State) : State :=
  match step s with
  | .next t => t
  | .fault f => nomatch f
  | .refused _ => s

/-- The state after one step of the word `w` at address 0. -/
def ran (w : Word) (regs : List (RegNum × Word)) (words : List (Nat × Word) := []) (input : List Byte := []) : State :=
  after (start 0#32 regs ((0, w) :: words) input)

theorem test_add_wraps : (ran 0x00221820#32 [(1, 0x7FFFFFFF#32), (2, 1#32)]).readReg 3 = 0x80000000#32 := by decide
theorem test_add_same_register :
    (ran 0x00210820#32 [(1, 0x40000001#32)]).readReg 1 = 0x80000002#32 ∧ (ran 0x00210820#32 []).pc = 4#32 := by decide
theorem test_sub_order : (ran 0x00221822#32 [(1, 3#32), (2, 5#32)]).readReg 3 = 0xFFFFFFFE#32 := by decide
theorem test_slt_signed :
    (ran 0x0022182A#32 [(1, 0x80000000#32), (2, 0x7FFFFFFF#32)]).readReg 3 = 1#32 ∧
      (ran 0x0022182A#32 [(1, 5#32), (2, 5#32), (3, 9#32)]).readReg 3 = 0#32 := by decide
theorem test_sltu_unsigned :
    (ran 0x0022182B#32 [(1, 0x7FFFFFFF#32), (2, 0x80000000#32)]).readReg 3 = 1#32 ∧
      (ran 0x0022182B#32 [(1, 0xFFFFFFFF#32), (3, 9#32)]).readReg 3 = 0#32 := by decide
theorem test_addi_sign_extends : (ran 0x2023FFFF#32 [(1, 5#32)]).readReg 3 = 4#32 := by decide
theorem test_addi_register_zero :
    (ran 0x20200007#32 [(1, 5#32)]).readReg 0 = 0#32 ∧ (ran 0x20200007#32 [(1, 5#32)]).pc = 4#32 := by decide
theorem test_mult_signed :
    (ran 0x00220018#32 [(1, 0xFFFFFFF9#32), (2, 2#32)]).hi = 0xFFFFFFFF#32 ∧
      (ran 0x00220018#32 [(1, 0xFFFFFFF9#32), (2, 2#32)]).lo = 0xFFFFFFF2#32 := by decide
theorem test_multu_unsigned :
    (ran 0x00220019#32 [(1, 0xFFFFFFF9#32), (2, 2#32)]).hi = 1#32 ∧
      (ran 0x00220019#32 [(1, 0xFFFFFFF9#32), (2, 2#32)]).lo = 0xFFFFFFF2#32 := by decide
theorem test_div_truncates :
    (ran 0x0022001A#32 [(1, 0xFFFFFFF9#32), (2, 2#32)]).hi = 0xFFFFFFFF#32 ∧
      (ran 0x0022001A#32 [(1, 0xFFFFFFF9#32), (2, 2#32)]).lo = 0xFFFFFFFD#32 := by decide
theorem test_div_by_zero :
    (after { start 0#32 [(1, 0x2A#32)] [(0, 0x0022001A#32)] with hi := 0x11111111#32, lo := 0x22222222#32 }).hi = 0#32 ∧
      (after { start 0#32 [(1, 0x2A#32)] [(0, 0x0022001A#32)] with hi := 0x11111111#32, lo := 0x22222222#32 }).lo = 0#32 :=
  by decide
theorem test_divu_unsigned :
    (ran 0x0022001B#32 [(1, 0xFFFFFFFD#32), (2, 5#32)]).hi = 3#32 ∧
      (ran 0x0022001B#32 [(1, 0xFFFFFFFD#32), (2, 5#32)]).lo = 0x33333332#32 := by decide
theorem test_divu_no_overflow :
    (ran 0x0022001B#32 [(1, 0x80000000#32), (2, 0xFFFFFFFF#32)]).hi = 0x80000000#32 ∧
      (ran 0x0022001B#32 [(1, 0x80000000#32), (2, 0xFFFFFFFF#32)]).lo = 0#32 := by decide
theorem test_mfhi :
    (after { start 0#32 [] [(0, 0x00003810#32)] with hi := 0xFFFFFFFF#32, lo := 0xFFFFFFFD#32 }).readReg 7
      = 0xFFFFFFFF#32 := by decide
theorem test_mflo :
    (after { start 0#32 [] [(0, 0x00003012#32)] with hi := 0xFFFFFFFF#32, lo := 0xFFFFFFFD#32 }).readReg 6
      = 0xFFFFFFFD#32 := by decide
theorem test_lis_literal :
    (ran 0x00000814#32 [] [(4, 0x20020009#32)]).readReg 1 = 0x20020009#32 ∧
      (ran 0x00000814#32 [] [(4, 0x20020009#32)]).pc = 8#32 := by decide
theorem test_lis_at_the_end :
    let t := after (start 0xFFC#32 [(1, 7#32)] [(0xFFC, 0x00000814#32)])
    t.haltCause = .memoryFault .outOfBounds ∧ t.haltInfo = 0x1000#32 ∧ t.pc = 0x1000#32 ∧ t.readReg 1 = 7#32 := by decide
theorem test_beq_taken_backward :
    (after (start 0x100#32 [] [(0x100, 0x10228000#32)])).pc = 0xFFFE0104#32 := by decide
theorem test_beq_not_taken :
    (after (start 0x100#32 [(1, 7#32), (2, 8#32)] [(0x100, 0x10220003#32)])).pc = 0x104#32 := by decide
theorem test_bne_taken :
    (after (start 0x100#32 [(1, 9#32)] [(0x100, 0x1422FFFD#32)])).pc = 0xF8#32 := by decide
theorem test_bne_not_taken :
    (after (start 0x100#32 [(1, 7#32), (2, 7#32)] [(0x100, 0x14220003#32)])).pc = 0x104#32 := by decide
theorem test_jr : (ran 0x03E00008#32 [(31, 0x14#32)]).pc = 0x14#32 := by decide
theorem test_jr_bad_target :
    let u := after (after (start 0x10#32 [(1, 0x2002#32)] [(0x10, 0x00200008#32)]))
    u.haltCause = .memoryFault .unaligned ∧ u.haltInfo = 0x2002#32 ∧ u.pc = 0x2002#32 := by decide
theorem test_jalr_through_the_link_register :
    (after (start 0x10#32 [(31, 0x40#32)] [(0x10, 0x03E00009#32)])).pc = 0x40#32 ∧
      (after (start 0x10#32 [(31, 0x40#32)] [(0x10, 0x03E00009#32)])).readReg 31 = 0x14#32 := by decide
theorem test_lw_wraps :
    (ran 0x8C230008#32 [(1, 0xFFFFFFFC#32)] [(4, 0xCAFEF00D#32)]).readReg 3 = 0xCAFEF00D#32 := by decide
theorem test_lw_input_sign_extends :
    (ran 0x8C230000#32 [(1, 0xFFFF0004#32)] [] [0x80#8]).readReg 3 = 0xFFFFFF80#32 ∧
      (ran 0x8C230000#32 [(1, 0xFFFF0004#32)] [] [0x80#8]).inPos = 1 := by decide
theorem test_sw_stores :
    (ran 0xAC220008#32 [(1, 0x100#32), (2, 0xA5A5A501#32)]).wordAt 0x108 = 0xA5A5A501#32 := by decide
theorem test_sw_outputs_the_low_byte :
    (ran 0xAC220000#32 [(1, 0xFFFF000C#32), (2, 0x12345641#32)]).out = [0x41#8] := by decide

/-! ## The cycle, the halt and the boundary -/

theorem test_unaligned_before_out_of_bounds :
    (ran 0x8C230003#32 [(1, 0x1003#32)]).haltCause = .memoryFault .unaligned ∧
      (ran 0x8C230003#32 [(1, 0x1003#32)]).haltInfo = 0x1006#32 := by decide
theorem test_load_from_the_output_port :
    (ran 0x8C230000#32 [(1, 0xFFFF000C#32)]).haltCause = .memoryFault .outOfBounds ∧
      (ran 0x8C230000#32 [(1, 0xFFFF000C#32)]).haltInfo = 0xFFFF000C#32 := by decide
theorem test_decode_error :
    let t := ran 0x0000000C#32 []
    t.runState = .halted ∧ t.haltCause = .decodeError ∧ t.haltInfo = 0xC#32 ∧ t.pc = 4#32 := by decide
theorem test_stop_before_the_fetch :
    let t := after State.reset.requestStop
    t.runState = .halted ∧ t.haltCause = .stop ∧ t.haltInfo = 0#32 ∧ t.pc = 0#32 := by decide
theorem test_halt_codes :
    [HaltCause.none, .stop, .decodeError, .memoryFault .unaligned, .memoryFault .outOfBounds].map HaltCause.code
      = [0, 1, 2, 3, 4] := by decide
theorem test_withFetchWord : (after (State.reset.withFetchWord 32 0x20030007)).readReg 3 = 7#32 := by decide

/-- From reset with nothing placed, the first cycle fetches `MEM_FILL` and halts (95_test_vectors.md, first row of the
cycle's table). -/
theorem test_reset_runs_into_nothing :
    (after State.reset).haltCause = .decodeError ∧ (after State.reset).haltInfo = 0#32 ∧ (after State.reset).pc = 4#32 := by
  decide

theorem test_image_bytes :
    imageOfBytes [0x20#8, 0x01#8, 0x00#8, 0x05#8] = .ok [0x20010005#32] ∧
      imageOfBytes [0x20#8, 0x01#8, 0x00#8] = .error .imageNotWords := ⟨rfl, rfl⟩

/-! ## Witnesses: for each obligation with hypotheses, values that meet them together -/

/-- A word with an ignored field set, and one with none, decode to the same instruction. -/
theorem witness_DecodeAndEncodeAgree_and_IgnoredFieldsHaveNoEffect :
    decode 0x00221820#32 = .ok (.add 3 1 2) ∧
      0x002218E0#32 &&& Mnemonic.add.decodeMask = 0x00221820#32 &&& Mnemonic.add.decodeMask ∧
      0x002218E0#32 &&& ~~~(Instr.add 3 1 2).mnemonic.ignoredMask
        = 0x00221820#32 &&& ~~~(Instr.add 3 1 2).mnemonic.ignoredMask ∧
      decode 0x002218E0#32 = .ok (.add 3 1 2) := ⟨rfl, by decide, by decide, rfl⟩

/-- Each row's mask and match, as the per-instruction statements name them, are met by the spec's word of that row. -/
theorem witness_rows :
    0x00221820#32 &&& 0xFC00003F#32 = 0x00000020#32 ∧ 0x00221822#32 &&& 0xFC00003F#32 = 0x00000022#32 ∧
      0x0022182A#32 &&& 0xFC00003F#32 = 0x0000002A#32 ∧ 0x0022182B#32 &&& 0xFC00003F#32 = 0x0000002B#32 ∧
      0x2023FFFF#32 &&& 0xFC000000#32 = 0x20000000#32 ∧ 0x00220018#32 &&& 0xFC00003F#32 = 0x00000018#32 ∧
      0x00220019#32 &&& 0xFC00003F#32 = 0x00000019#32 ∧ 0x0022001A#32 &&& 0xFC00003F#32 = 0x0000001A#32 ∧
      0x0022001B#32 &&& 0xFC00003F#32 = 0x0000001B#32 ∧ 0x00003810#32 &&& 0xFC00003F#32 = 0x00000010#32 ∧
      0x00003012#32 &&& 0xFC00003F#32 = 0x00000012#32 ∧ 0x00000814#32 &&& 0xFC00003F#32 = 0x00000014#32 ∧
      0x10220003#32 &&& 0xFC000000#32 = 0x10000000#32 ∧ 0x1422FFFD#32 &&& 0xFC000000#32 = 0x14000000#32 ∧
      0x03E00008#32 &&& 0xFC00003F#32 = 0x00000008#32 ∧ 0x00A00009#32 &&& 0xFC00003F#32 = 0x00000009#32 ∧
      0x8C230008#32 &&& 0xFC000000#32 = 0x8C000000#32 ∧ 0xAFDFFFFC#32 &&& 0xFC000000#32 = 0xAC000000#32 := by decide

theorem witness_RegisterZeroIsHardwired_write :
    ∃ t, destRegs (.add 0 1 2) = [0#5] ∧ exec (.add 0 1 2) (start 4#32 [(1, 5#32)] []) = .next t := ⟨_, rfl, rfl⟩
theorem witness_RegisterZeroIsHardwired_lis : (start 0xFFC#32 [] []).fetchable := ⟨by decide, by decide⟩
theorem witness_RegisterZeroIsHardwired_lw :
    let s := start 4#32 [(1, 0xFFFF0004#32)] [] [0x41#8]
    effAddr (s.readReg 1) 0 = s.cfg.stdinAddr ∧ s.cfg.stdinAddr.toNat % 4 = 0 ∧ s.inPos < s.cfg.consoleIn.length := by
  decide

theorem witness_OnlyTheDestinationRegisterChanges :
    ∃ t, exec (.add 3 1 2) (start 4#32 [(1, 5#32)] []) = .next t ∧ (1 : RegNum) ∉ destRegs (.add 3 1 2) :=
  ⟨_, rfl, by decide⟩

theorem witness_ArithmeticNeverTraps :
    (Instr.addi 0 1 7).mnemonic ∈ [.add, .sub, .slt, .sltu, .addi] ∧ destRegs (.addi 0 1 7) = [0#5] ∧
      destRegs (.slt 31 1 2) = [31#5] ∧ (3 : RegNum) ≠ 0#5 ∧
      (∃ t, exec (.add 3 1 2) State.reset = .next t) ∧ (∃ t, exec (.sub 3 1 2) State.reset = .next t) ∧
      ∃ t, exec (.addi 3 1 0x8000) State.reset = .next t :=
  ⟨by decide, rfl, rfl, by decide, ⟨_, rfl⟩, ⟨_, rfl⟩, ⟨_, rfl⟩⟩

/-- The three cases of the signed division, each at a boundary. -/
theorem witness_DivLeavesQuotientAndRemainder :
    ((start 4#32 [(1, 0x80000000#32)] []).readReg 1).toInt = -2 ^ 31 ∧
      ((start 4#32 [(1, 0x80000000#32)] []).readReg 2).toInt = 0 ∧
      ((start 4#32 [(1, 0x80000000#32), (2, 0xFFFFFFFF#32)] []).readReg 2).toInt = -1 ∧
      ((start 4#32 [(1, 0x80000001#32), (2, 0xFFFFFFFF#32)] []).readReg 1).toInt = -2 ^ 31 + 1 := by decide
theorem witness_DivuLeavesQuotientAndRemainder :
    ((start 4#32 [(1, 0xFFFFFFFF#32)] []).readReg 1).toNat = 2 ^ 32 - 1 ∧
      ((start 4#32 [(1, 0xFFFFFFFF#32)] []).readReg 2).toNat = 0 ∧
      ((start 4#32 [(2, 1#32)] []).readReg 2).toNat = 1 := by decide

theorem witness_OnlyMultiplyAndDivideWriteHiLo :
    ∃ t, exec (.mult 1 1) (start 4#32 [(1, 3#32)] []) = .next t ∧ ¬SameHiLo (start 4#32 [(1, 3#32)] []) t :=
  ⟨_, rfl, fun h => absurd h.2 (by decide)⟩

/-- The literal in the last word of memory, at an unaligned pc, and just past the memory. -/
theorem witness_LisLoadsItsLiteralAndSkipsIt :
    (start 0xFFC#32 [] []).fetchable ∧ (start 0xFFE#32 [] []).pc.toNat % 4 ≠ 0 ∧
      (start 0x1000#32 [] []).pc.toNat % 4 = 0 ∧
      (start 0x1000#32 [] []).cfg.memBytes ≤ (start 0x1000#32 [] []).pc.toNat :=
  ⟨⟨by decide, by decide⟩, by decide, by decide, by decide⟩

theorem witness_OnlyControlTransfersAndLisWriteThePc :
    ∃ t, exec (.beq 0 0 0xFFFF) (start 4#32 [] []) = .next t ∧ t.pc ≠ (start 4#32 [] []).pc := ⟨_, rfl, by decide⟩
theorem witness_OnlyRegisterJumpsMisalignThePc :
    ∃ t, (start 4#32 [(1, 0x2001#32)] []).pc.toNat % 4 = 0 ∧
      exec (.jalr 1) (start 4#32 [(1, 0x2001#32)] []) = .next t ∧ t.pc.toNat % 4 ≠ 0 :=
  ⟨_, by decide, rfl, by decide⟩

/-- An unaligned target by `jr`, the first address past the memory by `jalr`, the farthest branch forward. -/
theorem witness_BadTargetsFaultAtTheNextFetch :
    (∃ t, (Instr.jr 1).mnemonic ∈ [.beq, .bne, .jr, .jalr] ∧ (start 4#32 [(1, 0x2002#32)] []).runState = .running ∧
      (start 4#32 [(1, 0x2002#32)] []).stopFlag = false ∧
      exec (.jr 1) (start 4#32 [(1, 0x2002#32)] []) = .next t ∧ ¬t.fetchable) ∧
    (∃ t, (Instr.jalr 1).mnemonic ∈ [.beq, .bne, .jr, .jalr] ∧ (start 4#32 [(1, 0x1000#32)] []).runState = .running ∧
      (start 4#32 [(1, 0x1000#32)] []).stopFlag = false ∧
      exec (.jalr 1) (start 4#32 [(1, 0x1000#32)] []) = .next t ∧ ¬t.fetchable) ∧
    ∃ t, (Instr.beq 1 2 0x7FFF).mnemonic ∈ [.beq, .bne, .jr, .jalr] ∧ (start 4#32 [] []).pc.toNat % 4 = 0 ∧
      exec (.beq 1 2 0x7FFF) (start 4#32 [] []) = .next t ∧ ¬t.fetchable :=
  ⟨⟨_, by decide, by decide, by decide, rfl, fun h => absurd h.1 (by decide)⟩,
    ⟨_, by decide, by decide, by decide, rfl, fun h => absurd h.2 (by decide)⟩,
    ⟨_, by decide, by decide, rfl, fun h => absurd h.2 (by decide)⟩⟩

/-- The last word of memory, an unaligned address, and the first address past the memory. -/
theorem witness_LwLoadsAWordOrAnInputByteOrHalts_memory :
    let s := start 4#32 [(1, 0xFFC#32)] []
    (effAddr (s.readReg 1) 0).toNat % 4 = 0 ∧ effAddr (s.readReg 1) 0 ≠ s.cfg.stdinAddr ∧
      (effAddr (s.readReg 1) 0).toNat < s.cfg.memBytes ∧ (effAddr (s.readReg 1) 1).toNat % 4 ≠ 0 ∧
      (effAddr (s.readReg 1) 4).toNat % 4 = 0 ∧ effAddr (s.readReg 1) 4 ≠ s.cfg.stdinAddr ∧
      s.cfg.memBytes ≤ (effAddr (s.readReg 1) 4).toNat := by decide
/-- The last byte of the input, and the position right after it. -/
theorem witness_LwLoadsAWordOrAnInputByteOrHalts_input :
    let s := start 4#32 [(1, 0xFFFF0004#32)] [] [0x7F#8, 0x80#8]
    (effAddr (s.readReg 1) 0).toNat % 4 = 0 ∧ effAddr (s.readReg 1) 0 = s.cfg.stdinAddr ∧
      s.cfg.consoleIn[({ s with inPos := 1 } : State).inPos]? = some 0x80#8 ∧
      s.cfg.consoleIn.length ≤ ({ s with inPos := 2 } : State).inPos := by decide
theorem witness_SwStoresAWordOrOutputsAByteOrHalts :
    let s := start 4#32 [(1, 0xFFC#32), (3, 0xFFFF000C#32)] []
    (effAddr (s.readReg 1) 0).toNat % 4 = 0 ∧ effAddr (s.readReg 1) 0 ≠ s.cfg.stdoutAddr ∧
      (effAddr (s.readReg 1) 0).toNat < s.cfg.memBytes ∧ (effAddr (s.readReg 3) 0).toNat % 4 = 0 ∧
      effAddr (s.readReg 3) 0 = s.cfg.stdoutAddr ∧ (effAddr (s.readReg 1) 1).toNat % 4 ≠ 0 ∧
      (effAddr (s.readReg 1) 4).toNat % 4 = 0 ∧ effAddr (s.readReg 1) 4 ≠ s.cfg.stdoutAddr ∧
      s.cfg.memBytes ≤ (effAddr (s.readReg 1) 4).toNat := by decide

theorem witness_OnlyStoreWordChangesMemory :
    ∃ t, exec (.sw 2 1 0) (start 4#32 [(1, 0x100#32), (2, 5#32)] []) = .next t ∧
      t.byteAt 0x103 ≠ (start 4#32 [(1, 0x100#32), (2, 5#32)] []).byteAt 0x103 := ⟨_, rfl, by decide⟩

/-- A store, an addition, and a load from the same word. -/
theorem witness_LoadReturnsTheLatestStore :
    let s := start 4#32 [(1, 0xFFC#32), (2, 5#32)] []
    ∃ t u, effAddr (s.readReg 1) 0 = 0xFFC#32 ∧ (0xFFC#32 : Word).toNat % 4 = 0 ∧
      (0xFFC#32 : Word).toNat < s.cfg.memBytes ∧ 0xFFC#32 ≠ s.cfg.stdinAddr ∧ 0xFFC#32 ≠ s.cfg.stdoutAddr ∧
      (Instr.add 2 2 2).mnemonic ≠ .sw ∧ exec (.sw 2 1 0) s = .next t ∧ exec (.add 2 2 2) t = .next u ∧
      effAddr (u.readReg 1) 0 = 0xFFC#32 :=
  ⟨_, _, by decide, by decide, by decide, by decide, by decide, by decide, rfl, rfl, by decide⟩

theorem witness_StoresAreSeenByTheNextFetch :
    let s := start 4#32 [(1, 0xFFC#32), (2, 5#32)] []
    ∃ t, effAddr (s.readReg 1) 0 = 0xFFC#32 ∧ (0xFFC#32 : Word).toNat % 4 = 0 ∧
      (0xFFC#32 : Word).toNat < s.cfg.memBytes ∧ 0xFFC#32 ≠ s.cfg.stdoutAddr ∧ exec (.sw 2 1 0) s = .next t ∧
      (0xFF8#32 : Word).toNat % 4 = 0 ∧ 0xFF8#32 ≠ 0xFFC#32 :=
  ⟨_, by decide, by decide, by decide, by decide, rfl, by decide, by decide⟩

theorem witness_InputIsConsumedOneByteALoad :
    ∃ t, exec (.lw 3 1 0) (start 4#32 [(1, 0xFFFF0004#32)] [] [0x41#8]) = .next t ∧
      t.inPos ≠ (start 4#32 [(1, 0xFFFF0004#32)] [] [0x41#8]).inPos := ⟨_, rfl, by decide⟩
theorem witness_OutputOnlyGrows :
    ∃ t, exec (.sw 2 1 0) (start 4#32 [(1, 0xFFFF000C#32)] []) = .next t ∧
      t.out ≠ (start 4#32 [(1, 0xFFFF000C#32)] []).out := ⟨_, rfl, by decide⟩
theorem witness_OnlyLoadsLearnTheInput :
    ∃ t, (Instr.sw 2 1 0).mnemonic ≠ .lw ∧ exec (.sw 2 1 0) (start 4#32 [(1, 0xFFFF000C#32)] [] [0x41#8]) = .next t :=
  ⟨_, by decide, rfl⟩

/-- Two memories reached by different writes: one wrote the fill value and so lists nothing there. -/
theorem witness_MemoriesThatReadTheSameAreEqual :
    let m : Memory := Memory.writeByte 0#32 [] 4 7#8
    let m' : Memory := Memory.writeByte 0#32 (Memory.writeByte 0#32 m 8 9#8) 8 0#8
    Memory.wf 0#32 m = true ∧ Memory.wf 0#32 m' = true ∧ ∀ a, m.readByte 0#32 a = m'.readByte 0#32 a :=
  ⟨by decide, by decide, fun _ => rfl⟩

theorem witness_StepRunsTheDecodedInstruction :
    let s := start 0xFFC#32 [] [(0xFFC, 0x00221820#32)]
    s.runState = .running ∧ s.stopFlag = false ∧ s.fetchable ∧ decode (s.wordAt s.pc.toNat) = .ok (.add 3 1 2) :=
  ⟨by decide, by decide, ⟨by decide, by decide⟩, rfl⟩
theorem witness_FetchFaultsLeaveThePc :
    (start 2#32 [] []).runState = .running ∧ (start 2#32 [] []).stopFlag = false ∧
      (start 2#32 [] []).pc.toNat % 4 ≠ 0 ∧ (start 0x1000#32 [] []).runState = .running ∧
      (start 0x1000#32 [] []).stopFlag = false ∧ (start 0x1000#32 [] []).pc.toNat % 4 = 0 ∧
      (start 0x1000#32 [] []).cfg.memBytes ≤ (start 0x1000#32 [] []).pc.toNat := by decide
theorem witness_UndecodableWordsHaltTheCore :
    let s := start 0xFFC#32 [] [(0xFFC, 0xFFFFFFFF#32)]
    s.runState = .running ∧ s.stopFlag = false ∧ s.fetchable ∧
      decode (s.wordAt s.pc.toNat) = .error (.unknownOpcode 0x3F) :=
  ⟨by decide, by decide, ⟨by decide, by decide⟩, rfl⟩

/-- A fault in each of the three places: at the fetch, in the decoder, in the execution. -/
theorem witness_FaultsArePrecise :
    (after (start 2#32 [] [])).runState = .halted ∧ step (start 2#32 [] []) = .next (after (start 2#32 [] [])) ∧
      (after (start 0#32 [] [])).runState = .halted ∧ step (start 0#32 [] []) = .next (after (start 0#32 [] [])) ∧
      (after (start 0#32 [] [(0, 0x8C230001#32)])).runState = .halted ∧
      step (start 0#32 [] [(0, 0x8C230001#32)]) = .next (after (start 0#32 [] [(0, 0x8C230001#32)])) :=
  ⟨by decide, rfl, by decide, rfl, by decide, rfl⟩
theorem witness_OnlyMemoryAccessesFaultInExecution :
    (∃ t, exec (.lw 3 0 1) (start 4#32 [] []) = .next t ∧ t.runState = .halted) ∧
      ∃ t, exec (.sw 3 0 0x7FFC) (start 4#32 [] []) = .next t ∧ t.haltInfo = 0x7FFC#32 :=
  ⟨⟨_, rfl, by decide⟩, ⟨_, rfl, by decide⟩⟩
theorem witness_StopRequestHaltsBeforeTheFetch :
    State.reset.runState = .running ∧ State.reset.requestStop.runState = .running ∧
      State.reset.requestStop.stopFlag = true := by decide
theorem witness_HaltedIsTerminal : (after State.reset).runState = .halted := by decide
theorem witness_HaltCauseIsWrittenOnceAtTheHalt :
    step State.reset = .next (after State.reset) ∧ (after State.reset).haltCause ≠ State.reset.haltCause ∧
      State.reset.runState = .running ∧ (after State.reset).runState = .halted := ⟨rfl, by decide, by decide, by decide⟩

/-- A running state with a store to run, a stopping one, and a halted one. -/
theorem witness_EveryStepKeepsTheInvariant_and_StepsKeepParametersAndStopFlag :
    (∃ t, (State.reset.withFetchWord 32 0xAC010100).Inv ∧ step (State.reset.withFetchWord 32 0xAC010100) = .next t) ∧
      (∃ t, State.reset.requestStop.Inv ∧ step State.reset.requestStop = .next t) ∧
      ∃ t, (after State.reset).Inv ∧ step (after State.reset) = .next t :=
  ⟨⟨_, ⟨by decide, by decide, by decide, by decide⟩, rfl⟩, ⟨_, ⟨by decide, by decide, by decide, by decide⟩, rfl⟩,
    ⟨_, ⟨by decide, by decide, by decide, by decide⟩, rfl⟩⟩

/-- An image one word too long, and one that fits exactly. -/
theorem witness_ResetLeavesTheSpecifiedState :
    ({ Config.default with memBytes := 4 } : Config).memBytes < 4 * ([1#32, 2#32] : List Word).length ∧
      4 * ([1#32] : List Word).length ≤ ({ Config.default with memBytes := 4 } : Config).memBytes := by decide
theorem witness_ImageBytesAreBigEndianWords :
    ([1#8, 2#8, 3#8] : List Byte).length % 4 ≠ 0 ∧ ([1#8, 2#8, 3#8, 4#8] : List Byte).length % 4 = 0 := by decide
theorem witness_PowerOnMeetsTheInvariant :
    ∃ s, Config.default.wellFormed = true ∧ State.powerOn Config.default RegInit.zero [0x20010005#32] = .ok s :=
  ⟨_, by decide, rfl⟩
/-- Both sides at the ends of a range: register 31 and 32, the farthest label forward and one word further. -/
theorem witness_LinesAssembleExactlyWhenInRange :
    (∃ w, assemble 0 (.reg3 .add 31 1 2) = .ok w) ∧ ¬AsmLine.InRange 0 (.reg3 .add 32 1 2) ∧
      (∃ w, assemble 0 (.branch .beq 1 2 (.label 0x20000)) = .ok w) ∧
      ¬AsmLine.InRange 0 (.branch .beq 1 2 (.label 0x20004)) :=
  ⟨⟨_, rfl⟩, by simp [AsmLine.InRange], ⟨_, rfl⟩, by
    simp only [AsmLine.InRange, BranchOperand.InRange, not_and]
    rintro _ _ ⟨k, h1, h2, h3⟩
    omega⟩
theorem witness_WrittenImmediatesReachTheirInstruction :
    (∃ w, assemble 0 (.addi 3 1 (.dec (-32768))) = .ok w) ∧ (∃ w, assemble 0 (.addi 3 1 (.hex 0x7FFF)) = .ok w) ∧
      ∃ w, assemble 0 (.addi 3 1 (.hex 0x8000)) = .ok w := ⟨⟨_, rfl⟩, ⟨_, rfl⟩, ⟨_, rfl⟩⟩
theorem witness_BranchesToLabelsReachThem :
    (∃ w, assemble 0 (.branch .beq 1 0 (.label 16)) = .ok w) ∧
      ∃ w, assemble 0x100 (.branch .bne 1 0 (.label 0)) = .ok w := ⟨⟨_, rfl⟩, ⟨_, rfl⟩⟩

end Sys2Proof.Tests
end

/-! SUPPORT. Decoding and encoding agree (30_encoding.md R56, R57). The idea is one law, `decode_eq_ok_iff`: a word decodes
to an instruction exactly when the word with the instruction's ignored fields cleared is its canonical word. -/

namespace Sys2Proof

/-! ## Clearing bits of a word -/

/-- Clearing bits changes nothing exactly when they are clear. -/
theorem and_not_eq_self_iff {n : Nat} (w m : BitVec n) : w &&& ~~~m = w ↔ w &&& m = 0#n := by
  constructor
  · intro h
    rw [← h, BitVec.and_assoc, BitVec.and_comm (~~~m), BitVec.and_not_self]
    exact BitVec.and_zero
  · intro h
    calc w &&& ~~~m = (w &&& ~~~m) ||| (w &&& m) := by rw [h, BitVec.or_zero]
      _ = w &&& (~~~m ||| m) := BitVec.and_or_distrib_left.symm
      _ = w := by rw [BitVec.or_comm, BitVec.or_not_self, BitVec.and_allOnes]

/-- The decoder looks at no bit that a row ignores (R56). -/
theorem and_not_ignoredMask_and_decodeMask (w : Word) (m : Mnemonic) :
    (w &&& ~~~m.ignoredMask) &&& m.decodeMask = w &&& m.decodeMask := by
  have disjoint : ~~~m.ignoredMask &&& m.decodeMask = m.decodeMask := by cases m <;> decide
  rw [BitVec.and_assoc, disjoint]

/-! ## The instruction of a row that a word's fields give -/

/-- The instruction of row `m` with the operands that stand in `w` (R55). -/
def Mnemonic.instrOf (w : Word) : Mnemonic → Instr
  | .add => .add (rdOf w) (rsOf w) (rtOf w)
  | .sub => .sub (rdOf w) (rsOf w) (rtOf w)
  | .slt => .slt (rdOf w) (rsOf w) (rtOf w)
  | .sltu => .sltu (rdOf w) (rsOf w) (rtOf w)
  | .mult => .mult (rsOf w) (rtOf w)
  | .multu => .multu (rsOf w) (rtOf w)
  | .div => .div (rsOf w) (rtOf w)
  | .divu => .divu (rsOf w) (rtOf w)
  | .mfhi => .mfhi (rdOf w)
  | .mflo => .mflo (rdOf w)
  | .lis => .lis (rdOf w)
  | .jr => .jr (rsOf w)
  | .jalr => .jalr (rsOf w)
  | .addi => .addi (rtOf w) (rsOf w) (immOf w)
  | .beq => .beq (rsOf w) (rtOf w) (immOf w)
  | .bne => .bne (rsOf w) (rtOf w) (immOf w)
  | .lw => .lw (rtOf w) (rsOf w) (immOf w)
  | .sw => .sw (rtOf w) (rsOf w) (immOf w)

@[simp] theorem mnemonic_instrOf (m : Mnemonic) (w : Word) : (m.instrOf w).mnemonic = m := by
  cases m <;> rfl

/-- A canonical word's fields give its instruction back. -/
@[simp] theorem instrOf_encode (i : Instr) : i.mnemonic.instrOf (encode i) = i := by
  cases i <;> simp [Instr.mnemonic, Mnemonic.instrOf, encode]

/-! ## Matching a row and decoding to it -/

theorem decode_of_match {w : Word} : ∀ {m : Mnemonic}, w &&& m.decodeMask = m.matchWord →
    decode w = .ok (m.instrOf w)
  | .add, h | .sub, h | .slt, h | .sltu, h | .mult, h | .multu, h | .div, h | .divu, h | .mfhi, h | .mflo, h
  | .lis, h | .jr, h | .jalr, h => by
    obtain ⟨hd, hf⟩ := decode_of_maskR h rfl
    rw [hd, decodeR, hf]
    rfl
  | .addi, h | .beq, h | .bne, h | .lw, h | .sw, h => by
    obtain ⟨hd, hp⟩ := decode_of_maskI h (by decide)
    rw [hd, decodeI, hp]
    rfl

theorem match_of_decode {w : Word} {i : Instr} (h : decode w = .ok i) :
    w &&& i.mnemonic.decodeMask = i.mnemonic.matchWord := by
  rcases decode_ok_cases h with ⟨h0, hR⟩ | ⟨-, hI⟩
  · unfold decodeR at hR
    split at hR <;> cases hR
    all_goals
      rename_i hf
      simp only [Instr.mnemonic]
      exact (maskR_iff w rfl).2 ⟨h0, hf⟩
  · unfold decodeI at hI
    split at hI <;> cases hI
    all_goals
      rename_i hp
      simp only [Instr.mnemonic]
      exact (maskI_iff w rfl).2 hp

/-- R60, R61: a word decodes into a row exactly when it matches the row's `match` under the row's `mask`. -/
theorem decode_mnemonic_iff (w : Word) (m : Mnemonic) :
    (∃ i, decode w = .ok i ∧ i.mnemonic = m) ↔ w &&& m.decodeMask = m.matchWord := by
  constructor
  · rintro ⟨i, hi, rfl⟩
    exact match_of_decode hi
  · intro h
    exact ⟨m.instrOf w, decode_of_match h, mnemonic_instrOf m w⟩

theorem eq_instrOf_of_decode {w : Word} {i : Instr} (h : decode w = .ok i) : i = i.mnemonic.instrOf w :=
  Except.ok.inj (h.symm.trans (decode_of_match (match_of_decode h)))

/-! ## Canonical words -/

/-- Every canonical word lies in its instruction's row and has zero in the ignored fields. -/
theorem encode_matches_row : ∀ i : Instr, Laws.Encoding.Statement i
  | .add .. => Laws.Encoding.add ..
  | .sub .. => Laws.Encoding.sub ..
  | .slt .. => Laws.Encoding.slt ..
  | .sltu .. => Laws.Encoding.sltu ..
  | .mult .. => Laws.Encoding.mult ..
  | .multu .. => Laws.Encoding.multu ..
  | .div .. => Laws.Encoding.div ..
  | .divu .. => Laws.Encoding.divu ..
  | .mfhi .. => Laws.Encoding.mfhi ..
  | .mflo .. => Laws.Encoding.mflo ..
  | .lis .. => Laws.Encoding.lis ..
  | .jr .. => Laws.Encoding.jr ..
  | .jalr .. => Laws.Encoding.jalr ..
  | .addi .. => Laws.Encoding.addi ..
  | .beq .. => Laws.Encoding.beq ..
  | .bne .. => Laws.Encoding.bne ..
  | .lw .. => Laws.Encoding.lw ..
  | .sw .. => Laws.Encoding.sw ..

/-- The canonical word by the bit fields is the one by R57's shifts. -/
theorem encode_eq_canonicalWord : ∀ i : Instr, encode i = Machine.canonicalWord i
  | .add .. | .sub .. | .slt .. | .sltu .. | .mult .. | .multu .. | .div .. | .divu .. | .mfhi .. | .mflo ..
  | .lis .. | .jr .. | .jalr .. => encodeR_eq ..
  | .addi .. | .beq .. | .bne .. | .lw .. | .sw .. => encodeI_eq ..

theorem decode_encode (i : Instr) : decode (encode i) = .ok i := by
  rw [decode_of_match (encode_matches_row i).1, instrOf_encode]

/-- Two instructions have different canonical words, for the decoder tells them apart. -/
theorem encode_injective : Function.Injective encode := by
  intro i j h
  have hj : decode (encode i) = .ok j := h ▸ decode_encode j
  exact Except.ok.inj ((decode_encode i).symm.trans hj)

/-! ## Clearing the ignored fields gives the canonical word (the table of R56) -/

/-- An R-format word with bits `a`, `b`, `c` of its operand fields kept and shamt cleared is a canonical word. -/
theorem encodeR_eq_and {w k : Word} {f : BitVec 6} {a b c rs rt rd : BitVec 5}
    (h : opcodeOf w = 0#6 ∧ functOf w = f) (hrs : rsOf w &&& a = rs) (hrt : rtOf w &&& b = rt) (hrd : rdOf w &&& c = rd)
    (hk : k = BitVec.allOnes 6 ++ a ++ b ++ c ++ 0#5 ++ BitVec.allOnes 6) : encodeR f rd rs rt = w &&& k := by
  obtain ⟨h0, hf⟩ := h
  conv_rhs => rw [hk, ← fields_R w, and_fields_R, h0, hf, hrs, hrt, hrd]
  simp only [encodeR, BitVec.and_allOnes, BitVec.and_zero]

/-- An I-format word is a canonical word as it stands. -/
theorem encodeI_eq_and_not_zero {w : Word} {p : BitVec 6} (h : opcodeOf w = p) :
    encodeI p (rsOf w) (rtOf w) (immOf w) = w &&& ~~~0#32 := by
  rw [BitVec.not_zero, BitVec.and_allOnes, ← h]
  exact fields_I w

theorem encode_instrOf {w : Word} : ∀ {m : Mnemonic}, w &&& m.decodeMask = m.matchWord →
    encode (m.instrOf w) = w &&& ~~~m.ignoredMask
  | .add, h | .sub, h | .slt, h | .sltu, h =>
    encodeR_eq_and ((maskR_iff w rfl).1 h) BitVec.and_allOnes BitVec.and_allOnes BitVec.and_allOnes (by decide)
  | .mult, h | .multu, h | .div, h | .divu, h =>
    encodeR_eq_and ((maskR_iff w rfl).1 h) BitVec.and_allOnes BitVec.and_allOnes BitVec.and_zero (by decide)
  | .mfhi, h | .mflo, h | .lis, h =>
    encodeR_eq_and ((maskR_iff w rfl).1 h) BitVec.and_zero BitVec.and_zero BitVec.and_allOnes (by decide)
  | .jr, h | .jalr, h =>
    encodeR_eq_and ((maskR_iff w rfl).1 h) BitVec.and_allOnes BitVec.and_zero BitVec.and_zero (by decide)
  | .addi, h | .beq, h | .bne, h | .lw, h | .sw, h => encodeI_eq_and_not_zero ((maskI_iff w rfl).1 h)

/-- The law of the family: a word decodes to `i` exactly when clearing the fields `i` ignores gives the canonical word of
`i`. -/
theorem decode_eq_ok_iff (w : Word) (i : Instr) :
    decode w = .ok i ↔ w &&& ~~~i.mnemonic.ignoredMask = encode i := by
  constructor
  · intro h
    calc w &&& ~~~i.mnemonic.ignoredMask = encode (i.mnemonic.instrOf w) := (encode_instrOf (match_of_decode h)).symm
      _ = encode i := by rw [← eq_instrOf_of_decode h]
  · intro h
    have hm : w &&& i.mnemonic.decodeMask = i.mnemonic.matchWord := by
      rw [← and_not_ignoredMask_and_decodeMask, h, (encode_matches_row i).1]
    have hi : i.mnemonic.instrOf w = i := encode_injective ((encode_instrOf hm).trans h)
    rw [decode_of_match hm, hi]

/-! ## The obligations -/

/-- Settles O1: R57's formulas are `encode_eq_canonicalWord`, the round trip is `decode_encode`, and the last clause is the
law `decode_eq_ok_iff` read at a word that decodes. -/
theorem decodeAndEncodeAgree : Obligations.DecodeAndEncodeAgree := by
  refine ⟨fun i => ⟨encode_eq_canonicalWord i, decode_encode i⟩, fun w i h => ?_⟩
  rw [← (decode_eq_ok_iff w i).1 h, and_not_eq_self_iff]

/-- Settles O4: whether a word lies in a row shows under the row's mask alone, and what it decodes to shows with the
ignored fields cleared. -/
theorem ignoredFieldsHaveNoEffect : Obligations.IgnoredFieldsHaveNoEffect := by
  refine ⟨fun w w' m h => ?_, fun w w' i hw h => ?_, rfl, rfl, rfl⟩
  · rw [decode_mnemonic_iff, decode_mnemonic_iff, h]
  · rw [decode_eq_ok_iff] at hw ⊢
    exact h.trans hw

end Sys2Proof

/-! SUPPORT. The sums `add` and `addi` (41_alu.md R90, R94). Each is one register write in every state, so the frame is that
of `writeReg`, and what is left to say is the value written, as a number. -/

namespace Sys2Proof.Machine

/-- R90: `add` is one register write, whatever the operands. -/
theorem exec_add (rd rs rt : RegNum) (s : State) :
    exec (.add rd rs rt) s = .next (s.writeReg rd (s.readReg rs + s.readReg rt)) := rfl

/-- R94: `addi` is one register write, whatever the operands. -/
theorem exec_addi (rt rs : RegNum) (imm : Half) (s : State) :
    exec (.addi rt rs imm) s = .next (s.writeReg rt (s.readReg rs + sext16 imm)) := rfl

/-- The number a register holds after a write to it; register 0 holds 0 (10_state.md R12). -/
theorem State.readReg_writeReg_same_toNat (s : State) (r : RegNum) (v : Word) :
    ((s.writeReg r v).readReg r).toNat = if r = 0#5 then 0 else v.toNat := by
  rw [State.readReg_writeReg_same, apply_ite BitVec.toNat, BitVec.toNat_zero]

/-- Settles O8: the word clauses are the laws of the decoder and the encoder at the row of `add`; the run is one register
write, whose value is the sum of the two numbers modulo 2^32. -/
theorem addWritesTheWrappedSum : Obligations.AddWritesTheWrappedSum := by
  refine ⟨fun w h => decode_of_match (m := .add) h, fun rd rs rt s =>
    ⟨encode_eq_canonicalWord (.add rd rs rt), _, exec_add rd rs rt s, onlyReg_writeReg .., ?_⟩⟩
  rw [State.readReg_writeReg_same_toNat, BitVec.toNat_add]

/-- Settles O12: the word clauses are the laws of the decoder and the encoder at the row of `addi`; the run is one register
write, whose value is the register's number plus the signed immediate modulo 2^32. -/
theorem addiAddsTheSignedImmediate : Obligations.AddiAddsTheSignedImmediate := by
  refine ⟨fun w h => decode_of_match (m := .addi) h, fun rt rs imm s =>
    ⟨encode_eq_canonicalWord (.addi rt rs imm), _, exec_addi rt rs imm s, onlyReg_writeReg .., ?_⟩⟩
  rw [State.readReg_writeReg_same_toNat, Nat.cast_ite, Nat.cast_zero, add_toNat_of_toInt,
    sext16_toInt]

end Sys2Proof.Machine

/-! SUPPORT. `lis` (43_lis.md R110). The literal is read by `fetchWord` at the advanced pc, so each answer of that read
fixes the whole effect: a fault is a halt, a word is one register write and a second advance. -/

namespace Sys2Proof.Machine

/-! ## The answers of an instruction-side read (20_memory.md R35) -/

theorem State.fetchWord_of_unaligned (s : State) {a : Word} (h : a.toNat % 4 ≠ 0) :
    s.fetchWord a = .error { kind := .unaligned, addr := a } := if_pos h

theorem State.fetchWord_of_outOfBounds (s : State) {a : Word} (h : a.toNat % 4 = 0) (hb : s.cfg.memBytes ≤ a.toNat) :
    s.fetchWord a = .error { kind := .outOfBounds, addr := a } := by
  rw [State.fetchWord, if_neg (not_not.2 h), if_pos hb]

theorem State.fetchWord_of_fetchable {s : State} (h : s.fetchable) : s.fetchWord s.pc = .ok (s.wordAt s.pc.toNat) := by
  obtain ⟨haligned, hbound⟩ := h
  exact (s.fetchWord_ok_iff s.pc _).2 ⟨haligned, hbound, rfl⟩

/-! ## What `lis` does on each answer -/

theorem exec_lis (rd : RegNum) (s : State) : exec (.lis rd) s = execLis rd s := rfl

theorem exec_lis_of_fetchable (rd : RegNum) {s : State} (h : s.fetchable) :
    exec (.lis rd) s = .next (s.writeReg rd (s.wordAt s.pc.toNat)).advance := by
  rw [exec_lis, execLis, State.fetchWord_of_fetchable h]

/-- A literal that cannot be read halts the core with the read's own fault and nothing else written (60_exceptions.md
R140). -/
theorem exec_lis_halts_of_fetchWord_error (rd : RegNum) {s : State} {f : MemFault} (h : s.fetchWord s.pc = .error f) :
    ∃ t, exec (.lis rd) s = .next t ∧ HaltedWith (.memoryFault f.kind) f.addr s t ∧ SameProgramState s t := by
  refine ⟨s.raiseMem f, ?_, haltedWith_raiseMem s f, sameProgramState_raiseMem s f⟩
  rw [exec_lis, execLis, h]

/-- The frame of the write and the skip together. -/
theorem onlyPcAndReg_writeReg_advance (s : State) (r : RegNum) (v : Word) :
    OnlyPcAndRegs [r] s (s.writeReg r v).advance :=
  onlyPcAndReg_writeReg_setPc s r v _

/-- Settles O20: the word clauses are the laws of the decoder and the encoder at the row of `lis`; the run follows the
three answers of the read at the pc. The skip advances the pc whatever the destination, register 0 included. -/
theorem lisLoadsItsLiteralAndSkipsIt : Obligations.LisLoadsItsLiteralAndSkipsIt := by
  refine ⟨fun w h => decode_of_match (m := .lis) h, fun rd s =>
    ⟨encode_eq_canonicalWord (.lis rd), fun hfetch => ?_, fun hunaligned => ?_, fun haligned hbound => ?_⟩⟩
  · refine ⟨_, exec_lis_of_fetchable rd hfetch, onlyPcAndReg_writeReg_advance .., ?_, ?_⟩
    · rw [State.advance_readReg, State.readReg_writeReg_same]
    · rw [State.advance_pc, State.writeReg_pc, BitVec.toNat_add, BitVec.toNat_ofNat]
  · exact exec_lis_halts_of_fetchWord_error rd (s.fetchWord_of_unaligned hunaligned)
  · exact exec_lis_halts_of_fetchWord_error rd (s.fetchWord_of_outOfBounds haligned hbound)

end Sys2Proof.Machine

/-! SUPPORT. Faults (60_exceptions.md R133, R140). Every fault is one `raise` on the state before the cycle, or on that
state with its pc advanced; so the frame is that of `raise`, and the three places a fault comes from are the three cases of
`step_fault_cases`. -/

namespace Sys2Proof.Machine

/-! ## What a memory fault says -/

/-- A truthful fault's kind is read off its address (20_memory.md R32: alignment is tested first). -/
theorem MemFault.Fits.kind_eq {s : State} {f : MemFault} (h : f.Fits s) :
    f.kind = if f.addr.toNat % 4 = 0 then .outOfBounds else .unaligned := by
  obtain ⟨hk, ha⟩ | ⟨hk, ha, -⟩ := h
  · rw [hk, if_neg ha]
  · rw [hk, if_pos ha]

/-! ## What an instruction does to the engine -/

/-- The access that `i` makes in `s` is the one whose address the fault `f` records: the literal of `lis`, or the word of
`lw` or `sw`. -/
def MemFault.OfAccess (i : Instr) (s : State) (f : MemFault) : Prop :=
  (∃ rd, i = .lis rd ∧ f.addr = s.pc) ∨
    ∃ rt rs imm, (i = .lw rt rs imm ∨ i = .sw rt rs imm) ∧ f.addr = effAddr (s.readReg rs) imm

/-- An instruction leaves the engine's state alone, or it is a `lis`, `lw` or `sw` that raises a truthful memory fault of
its own address (60_exceptions.md R130). -/
theorem exec_sameEngine_or_raiseMem {i : Instr} {s t : State} (h : exec i s = .next t) :
    SameEngine s t ∨ ∃ f : MemFault, f.OfAccess i s ∧ f.Fits s ∧ t = s.raiseMem f := by
  obtain ⟨r, v, -, -, rfl⟩ | ⟨v, -, rfl⟩ | ⟨rs, -, rfl⟩ | ⟨rs, -, rfl⟩ | ⟨rs, rt, imm, -, rfl | rfl⟩ |
    ⟨rd, -, -, rfl⟩ | ⟨rt, rs, imm, -, -, rfl⟩ | ⟨rt, rs, imm, -, -, rfl⟩ | ⟨rt, rs, imm, -, -, -, -, rfl⟩ |
    ⟨f, -, haccess, hfits, rfl⟩ := exec_cases h
  rotate_right
  · exact .inr ⟨f, haccess, hfits, rfl⟩
  all_goals exact .inl (by simp [SameEngine])

/-! ## What a fault does to the rest of the state -/

/-- Nothing but the pc, the run state and the halt record may differ (R140). -/
def FaultFrame (s t : State) : Prop :=
  SameRegsExcept [] s t ∧ SameHiLo s t ∧ SameMemory s t ∧ SameConsole s t ∧ t.stopFlag = s.stopFlag ∧ t.cfg = s.cfg

/-- A halt writes the halt record only, so it adds nothing to a frame that leaves the pc open (R139). -/
theorem faultFrame_raise {s u : State} (h : OnlyPcAndRegs [] s u) (c : HaltCause) (info : Word) :
    FaultFrame s (u.raise c info) := by
  obtain ⟨hregs, hhilo, hmem, hconsole, ⟨-, hflag, -, -⟩, hcfg⟩ := h
  exact ⟨hregs, hhilo, hmem, hconsole, hflag, hcfg⟩

theorem onlyPc_advance (s : State) : OnlyPcAndRegs [] s s.advance := onlyPc_setPc s _

/-! ## The cycle that ends in a fault -/

/-- R133: the word is fetched, the pc advanced, and the decoder's answer halts the core. -/
theorem step_of_decode_error {s : State} {e : DecodeReject} (hrun : s.runState = .running) (hstop : s.stopFlag = false)
    (hfetch : s.fetchable) (hdecode : decode (s.wordAt s.pc.toNat) = .error e) :
    step s = .next (s.advance.raise .decodeError (s.wordAt s.pc.toNat)) := by
  rw [step_running hrun hstop, fetchDecodeExecute, State.fetchWord_of_fetchable hfetch]
  simp only [hdecode]

/-- The three places a fault can come from, in the order of the cycle: the fetch, the decoder, and the access of `lis`,
`lw` or `sw` (60_exceptions.md R138). -/
theorem step_fault_cases {s t : State} (hrun : s.runState = .running) (hstop : s.stopFlag = false)
    (h : step s = .next t) (hhalt : t.runState = .halted) :
    (¬s.fetchable ∧ ∃ f : MemFault, f.Fits s ∧ f.addr = s.pc ∧ t = s.raiseMem f) ∨
    (s.fetchable ∧ ∃ e, decode (s.wordAt s.pc.toNat) = .error e ∧
      t = s.advance.raise .decodeError (s.wordAt s.pc.toNat)) ∨
    (s.fetchable ∧ ∃ (i : Instr) (f : MemFault), decode (s.wordAt s.pc.toNat) = .ok i ∧
      f.OfAccess i s.advance ∧ f.Fits s ∧ t = s.advance.raiseMem f) := by
  obtain ⟨hr, -⟩ | ⟨-, hs, -⟩ | ⟨-, -, hfetch, hfault⟩ | ⟨-, -, hfetch, hfault⟩ | ⟨-, -, hfetch, i, hdecode, hexec⟩ :=
    step_cases h
  · simp [hrun] at hr
  · simp [hstop] at hs
  · exact .inl ⟨hfetch, hfault⟩
  · exact .inr (.inl ⟨hfetch, hfault⟩)
  · obtain ⟨hsame, -⟩ | ⟨f, haccess, hfits, ht⟩ := exec_sameEngine_or_raiseMem hexec
    · simp [hsame, hrun] at hhalt
    · exact .inr (.inr ⟨hfetch, i, f, hdecode, haccess, hfits, ht⟩)

/-- Whatever the fault, only the pc and the halt record may differ (R140). -/
theorem faultFrame_step {s t : State} (hrun : s.runState = .running) (hstop : s.stopFlag = false)
    (h : step s = .next t) (hhalt : t.runState = .halted) : FaultFrame s t := by
  obtain ⟨-, f, -, -, rfl⟩ | ⟨-, e, -, rfl⟩ | ⟨-, i, f, -, -, -, rfl⟩ := step_fault_cases hrun hstop h hhalt
  · exact faultFrame_raise (onlyPc_refl [] s) ..
  · exact faultFrame_raise (onlyPc_advance s) ..
  · exact faultFrame_raise (onlyPc_advance s) ..

/-- Settles O40: the frame is `faultFrame_step`, and the pc and the halt record are read off the place the fault came
from. -/
theorem faultsArePrecise : Obligations.FaultsArePrecise := by
  intro s t hrun hstop h hhalt
  obtain ⟨hregs, hhilo, hmem, hconsole, hflag, hcfg⟩ := faultFrame_step hrun hstop h hhalt
  refine ⟨hregs, hhilo, hmem, hconsole, hflag, hcfg, ?_⟩
  obtain ⟨hfetch, f, hfits, haddr, rfl⟩ | ⟨hfetch, e, hdecode, rfl⟩ | ⟨hfetch, i, f, hdecode, haccess, hfits, rfl⟩ :=
    step_fault_cases hrun hstop h hhalt
  · refine ⟨fun _ => ⟨rfl, haddr, ?_⟩, fun hf => absurd hf hfetch⟩
    rw [State.raiseMem_haltCause, hfits.kind_eq, haddr]
  · exact ⟨fun hn => absurd hfetch hn, fun _ => ⟨rfl, .inl ⟨e, hdecode, rfl, rfl⟩⟩⟩
  · refine ⟨fun hn => absurd hfetch hn, fun _ => ⟨rfl, .inr ⟨i, f.addr, hdecode, rfl, ?_, haccess⟩⟩⟩
    rw [State.raiseMem_haltCause, hfits.kind_eq]

/-- Settles O39: the step raises DecodeError on the advanced state, and a raise on it has the frame of a fault. -/
theorem undecodableWordsHaltTheCore : Obligations.UndecodableWordsHaltTheCore := by
  intro s e hrun hstop hfetch hdecode
  obtain ⟨hregs, hhilo, hmem, hconsole, -, hcfg⟩ :=
    faultFrame_raise (onlyPc_advance s) .decodeError (s.wordAt s.pc.toNat)
  exact ⟨_, step_of_decode_error hrun hstop hfetch hdecode, haltedWith_raise s.advance .decodeError _, rfl, hregs, hhilo,
    hmem, hconsole, hcfg⟩

end Sys2Proof.Machine

/-! SUPPORT. Reset with an image (70_reset_and_hazards.md R160). Placing the image writes memory only, so every other
component is that of `State.blank`; the words of memory are the laws of `State.loadWords`. -/

namespace Sys2Proof.Machine

theorem State.powerOn_of_fits {c : Config} (r : RegInit) {image : List Word} (h : 4 * image.length ≤ c.memBytes) :
    State.powerOn c r image = .ok ((State.blank c r).loadWords Config.loadBase image) :=
  if_pos (decide_eq_true h)

theorem State.powerOn_of_too_long {c : Config} (r : RegInit) {image : List Word} (h : c.memBytes < 4 * image.length) :
    State.powerOn c r image = .error .imageTooLong :=
  if_neg (by simpa [Config.imageFits] using h)

/-- Registers 1 to 31 are the stored ones, register `k + 1` entry `k` (10_state.md R10). -/
theorem State.readReg_ofNat_succ (s : State) (k : Fin 31) :
    s.readReg (BitVec.ofNat 5 (k.val + 1)) = s.gpr[k] := by
  have toNat_eq : (BitVec.ofNat 5 (k.val + 1)).toNat = k.val + 1 := by
    rw [BitVec.toNat_ofNat]
    omega
  have ne_zero : BitVec.ofNat 5 (k.val + 1) ≠ 0#5 := fun e => by simp [e] at toNat_eq
  simp [State.readReg, ne_zero, toNat_eq]

/-- A register reads as before when words are placed. -/
@[simp] theorem State.loadWords_readReg (ws : List Word) (s : State) (a : Nat) (x : RegNum) :
    (s.loadWords a ws).readReg x = s.readReg x := by
  rw [State.loadWords_eq]
  rfl

/-- A word of the image stands at its place after reset (10_state.md R28). -/
theorem State.wordAt_loadImage {ws : List Word} {k : Nat} {w : Word} (s : State) (h : ws[k]? = some w) :
    (s.loadWords Config.loadBase ws).wordAt (4 * k) = w := by
  simpa [Config.loadBase] using s.wordAt_loadWords ws Config.loadBase h

/-- A word beyond the image is the fill word after reset (R28). -/
theorem State.wordAt_blank_loadImage (c : Config) (r : RegInit) {ws : List Word} {k : Nat} (h : ws.length ≤ k) :
    ((State.blank c r).loadWords Config.loadBase ws).wordAt (4 * k) = c.memFill := by
  rw [State.wordAt_loadWords_ne _ _ (.inr (by rw [Config.loadBase]; omega)), State.wordAt_blank]

/-- Settles O49: an image that does not fit is refused; one that fits is placed in the blank state, whose components
outside memory `State.loadWords_eq` carries over, and memory is read by the two laws of placed words. -/
theorem resetLeavesTheSpecifiedState : Obligations.ResetLeavesTheSpecifiedState := by
  refine fun c r image => ⟨State.powerOn_of_too_long r, fun hfits => ⟨_, State.powerOn_of_fits r hfits, ?_⟩⟩
  refine ⟨State.readReg_zero _, fun k => (State.loadWords_readReg ..).trans (State.readReg_ofNat_succ _ k), ?_, ?_, ?_,
    fun k w hw => State.wordAt_loadImage _ hw, fun k hk => State.wordAt_blank_loadImage c r hk, ?_⟩
  -- HI, LO, the pc, and the conjunction of the engine, the console and the parameters: components outside memory.
  all_goals
    rw [State.loadWords_eq]
    simp [State.blank, Config.resetPc]

end Sys2Proof.Machine

/-! SUPPORT. What an instruction and a cycle keep (10_state.md R10 to R23). The parameters, the stop flag, memory and
the input position are followed through `exec_cases` once each; the halt record is written by `raise` alone. The
invariant is these facts together. -/

namespace Sys2Proof.Machine

/-! ## What an instruction keeps, component by component -/

theorem exec_cfg {i : Instr} {s t : State} (h : exec i s = .next t) : t.cfg = s.cfg := by
  obtain ⟨r, v, -, -, rfl⟩ | ⟨v, -, rfl⟩ | ⟨rs, -, rfl⟩ | ⟨rs, -, rfl⟩ | ⟨rs, rt, imm, -, rfl | rfl⟩ |
    ⟨rd, -, -, rfl⟩ | ⟨rt, rs, imm, -, -, rfl⟩ | ⟨rt, rs, imm, -, -, rfl⟩ | ⟨rt, rs, imm, -, -, -, -, rfl⟩ |
    ⟨f, -, -, -, rfl⟩ := exec_cases h
  all_goals simp

theorem exec_stopFlag {i : Instr} {s t : State} (h : exec i s = .next t) : t.stopFlag = s.stopFlag := by
  obtain ⟨-, hflag, -, -⟩ | ⟨f, -, -, rfl⟩ := exec_sameEngine_or_raiseMem h
  · exact hflag
  · rfl

/-- Memory changes only by a `sw` that stores its word: aligned, in bounds, not to the output port (R21). -/
theorem exec_mem_cases {i : Instr} {s t : State} (h : exec i s = .next t) :
    t.mem = s.mem ∨ ∃ rt rs imm, i = .sw rt rs imm ∧ (effAddr (s.readReg rs) imm).toNat % 4 = 0 ∧
      effAddr (s.readReg rs) imm ≠ s.cfg.stdoutAddr ∧ (effAddr (s.readReg rs) imm).toNat < s.cfg.memBytes ∧
      t = s.setWord (effAddr (s.readReg rs) imm).toNat (s.readReg rt) := by
  obtain ⟨r, v, -, -, rfl⟩ | ⟨v, -, rfl⟩ | ⟨rs, -, rfl⟩ | ⟨rs, -, rfl⟩ | ⟨rs, rt, imm, -, rfl | rfl⟩ |
    ⟨rd, -, -, rfl⟩ | ⟨rt, rs, imm, -, -, rfl⟩ | ⟨rt, rs, imm, -, -, rfl⟩ | hstore | ⟨f, -, -, -, rfl⟩ := exec_cases h
  pick_goal 10
  · exact .inr hstore
  all_goals exact .inl (by simp)

/-- The input position changes only by a `lw` from the input port (R22). -/
theorem exec_inPos_cases {i : Instr} {s t : State} (h : exec i s = .next t) :
    t.inPos = s.inPos ∨ ((∃ rt rs imm, i = .lw rt rs imm ∧ effAddr (s.readReg rs) imm = s.cfg.stdinAddr) ∧
      t.inPos = s.consoleIn.2.inPos) := by
  obtain ⟨r, v, -, -, rfl⟩ | ⟨v, -, rfl⟩ | ⟨rs, -, rfl⟩ | ⟨rs, -, rfl⟩ | ⟨rs, rt, imm, -, rfl | rfl⟩ |
    ⟨rd, -, -, rfl⟩ | ⟨rt, rs, imm, hi, hport, rfl⟩ | ⟨rt, rs, imm, -, -, rfl⟩ | ⟨rt, rs, imm, -, -, -, -, rfl⟩ |
    ⟨f, -, -, -, rfl⟩ := exec_cases h
  pick_goal 8
  · exact .inr ⟨⟨rt, rs, imm, hi, hport⟩, State.writeReg_inPos ..⟩
  all_goals exact .inl (by simp)

/-! ## The conjuncts of the invariant -/

theorem Config.memBytes_mod_four {c : Config} (h : c.wellFormed = true) : c.memBytes % 4 = 0 := by
  simp only [Config.wellFormed, Bool.and_eq_true, decide_eq_true_eq] at h
  omega

/-- A store happens at an aligned address below `MEM_BYTES`, so the whole word lies below it (20_memory.md R49). -/
theorem exec_memWf {i : Instr} {s t : State} (hcfg : s.cfg.wellFormed = true) (hmem : s.memWf = true)
    (h : exec i s = .next t) : t.memWf = true := by
  obtain hsame | ⟨rt, rs, imm, -, haligned, -, hbound, rfl⟩ := exec_mem_cases h
  · rw [State.memWf, hsame, exec_cfg h]
    exact hmem
  · have := Config.memBytes_mod_four hcfg
    exact State.setWord_memWf _ hmem (by omega)

theorem exec_inPos_le {i : Instr} {s t : State} (hpos : s.inPos ≤ s.cfg.consoleIn.length) (h : exec i s = .next t) :
    t.inPos ≤ t.cfg.consoleIn.length := by
  rw [exec_cfg h]
  obtain hsame | ⟨-, hread⟩ := exec_inPos_cases h
  · exact hsame ▸ hpos
  · exact hread ▸ s.consoleIn_inPos_le hpos

theorem State.haltWf_congr {s t : State} (h : SameEngine s t) (hcfg : t.cfg = s.cfg) : t.haltWf = s.haltWf := by
  obtain ⟨hrun, hflag, hcause, hinfo⟩ := h
  simp only [State.haltWf, hrun, hflag, hcause, hinfo, hcfg]

/-- The record of a memory fault that tells the truth is in order (60_exceptions.md R131, R132). -/
theorem MemFault.Fits.haltWf_raiseMem {s : State} {f : MemFault} (h : f.Fits s) : (s.raiseMem f).haltWf = true := by
  obtain ⟨hk, ha⟩ | ⟨hk, ha, hb⟩ := h
  · simp [State.haltWf, hk, ha]
  · simp [State.haltWf, hk, ha, hb]

theorem exec_haltWf {i : Instr} {s t : State} (hhalt : s.haltWf = true) (h : exec i s = .next t) : t.haltWf = true := by
  obtain hsame | ⟨f, -, hfits, rfl⟩ := exec_sameEngine_or_raiseMem h
  · exact (State.haltWf_congr hsame (exec_cfg h)).trans hhalt
  · exact hfits.haltWf_raiseMem

/-! ## The invariant -/

theorem exec_inv {i : Instr} {s t : State} (hinv : s.Inv) (h : exec i s = .next t) : t.Inv := by
  obtain ⟨hcfg, hmem, hpos, hhalt⟩ := hinv
  exact ⟨(exec_cfg h).symm ▸ hcfg, exec_memWf hcfg hmem h, exec_inPos_le hpos h, exec_haltWf hhalt h⟩

theorem State.advance_inv {s : State} (hinv : s.Inv) : s.advance.Inv := hinv

/-- A halt keeps the invariant where its record is in order: it writes nothing else (60_exceptions.md R139). -/
theorem State.raise_inv {s : State} (hinv : s.Inv) {c : HaltCause} {info : Word}
    (hhalt : (s.raise c info).haltWf = true) : (s.raise c info).Inv := by
  obtain ⟨hcfg, hmem, hpos, -⟩ := hinv
  exact ⟨hcfg, hmem, hpos, hhalt⟩

theorem State.haltStop_haltWf {s : State} (h : s.stopFlag = true) : s.haltStop.haltWf = true := by
  simp [State.haltWf, h]

theorem State.raise_decodeError_haltWf (s : State) {w : Word} {e : DecodeReject} (h : decode w = .error e) :
    (s.raise .decodeError w).haltWf = true := by
  simp [State.haltWf, h, Except.toOption]

/-- Settles O48: a cycle changes nothing, halts with a record that is in order, or executes an instruction. -/
theorem everyStepKeepsTheInvariant : Obligations.EveryStepKeepsTheInvariant := by
  intro s t hinv h
  obtain ⟨-, rfl⟩ | ⟨-, hflag, rfl⟩ | ⟨-, -, -, f, hfits, -, rfl⟩ | ⟨-, -, -, e, hdecode, rfl⟩ |
    ⟨-, -, -, i, -, hexec⟩ := step_cases h
  · exact hinv
  · exact State.raise_inv hinv (State.haltStop_haltWf hflag)
  · exact State.raise_inv hinv hfits.haltWf_raiseMem
  · exact State.raise_inv (State.advance_inv hinv) (State.raise_decodeError_haltWf _ hdecode)
  · exact exec_inv (State.advance_inv hinv) hexec

/-- Settles O51: an image that was accepted lies below `MEM_BYTES`, so placing it in the blank state keeps memory
canonical; every other conjunct is the blank state's. -/
theorem powerOnMeetsTheInvariant : Obligations.PowerOnMeetsTheInvariant := by
  intro c r image s hcfg h
  have hfits : 4 * image.length ≤ c.memBytes := by
    by_contra hlong
    simp [State.powerOn_of_too_long r (Nat.lt_of_not_le hlong)] at h
  obtain rfl := Except.ok.inj ((State.powerOn_of_fits r hfits).symm.trans h)
  have hmem := State.loadWords_memWf image (State.blank c r) Config.loadBase rfl
    (by simpa [Config.loadBase, State.blank] using hfits)
  rw [State.Inv, State.memWf, State.loadWords_cfg]
  refine ⟨hcfg, hmem, ?_, ?_⟩
  all_goals
    rw [State.loadWords_eq]
    simp [State.blank, State.haltWf]

/-- Settles O52: the reset state is the accepted load of the empty image, so it meets the invariant by O51. -/
theorem resetStateMeetsTheInvariant : Obligations.ResetStateMeetsTheInvariant := by
  have hload : State.powerOn Config.default RegInit.zero [] = .ok State.reset := rfl
  exact ⟨powerOnMeetsTheInvariant _ _ _ _ (by decide) hload, hload⟩

/-- Settles O46: the cycle's own writes and an instruction's leave both alone. -/
theorem stepsKeepParametersAndStopFlag : Obligations.StepsKeepParametersAndStopFlag := by
  intro s t h
  obtain ⟨-, rfl⟩ | ⟨-, -, rfl⟩ | ⟨-, -, -, f, -, -, rfl⟩ | ⟨-, -, -, e, -, rfl⟩ |
    ⟨-, -, -, i, -, hexec⟩ := step_cases h
  rotate_right
  · exact ⟨(exec_cfg hexec).trans s.advance_cfg, (exec_stopFlag hexec).trans s.advance_stopFlag⟩
  all_goals exact ⟨rfl, rfl⟩

end Sys2Proof.Machine

/-! SUPPORT. The cycle and the halt (40_step.md R80 to R87; 60_exceptions.md R138 to R141). One equation of `step` for
each way through the cycle; from them that the core is never stuck, and what the engine's state can do in a step. -/

namespace Sys2Proof.Machine

/-! ## The step, one equation a path -/

theorem step_of_fetchWord_error {s : State} {f : MemFault} (hrun : s.runState = .running) (hstop : s.stopFlag = false)
    (h : s.fetchWord s.pc = .error f) : step s = .next (s.raiseMem f) := by
  rw [step_running hrun hstop, fetchDecodeExecute, h]

/-- Settles O37: the fetch answers the word at the pc, and what is left of the step is the instruction's execution. -/
theorem stepRunsTheDecodedInstruction : Obligations.StepRunsTheDecodedInstruction := by
  intro s i hrun hstop hfetch hdecode
  rw [step_running hrun hstop, fetchDecodeExecute, State.fetchWord_of_fetchable hfetch]
  simp only [hdecode]
  rfl

/-- A fetch that fails halts the core with the read's own fault and nothing else written (R140). -/
theorem step_halts_of_fetchWord_error {s : State} {f : MemFault} (hrun : s.runState = .running)
    (hstop : s.stopFlag = false) (h : s.fetchWord s.pc = .error f) :
    ∃ t, step s = .next t ∧ HaltedWith (.memoryFault f.kind) f.addr s t ∧ SameProgramState s t :=
  ⟨_, step_of_fetchWord_error hrun hstop h, haltedWith_raiseMem s f, sameProgramState_raiseMem s f⟩

/-- Settles O38: the two ways the read at the pc can fail, in the order of its checks. -/
theorem fetchFaultsLeaveThePc : Obligations.FetchFaultsLeaveThePc := by
  refine fun s hrun hstop => ⟨fun hunaligned => ?_, fun haligned hbound => ?_⟩
  · exact step_halts_of_fetchWord_error hrun hstop (s.fetchWord_of_unaligned hunaligned)
  · exact step_halts_of_fetchWord_error hrun hstop (s.fetchWord_of_outOfBounds haligned hbound)

/-! ## The core is never stuck (93_implementation_defined.md U16) -/

/-- Every instruction answers a next state. -/
theorem exec_total (s : State) : ∀ i : Instr, ∃ t, exec i s = .next t
  | .add .. | .sub .. | .slt .. | .sltu .. | .addi .. | .mult .. | .multu .. | .div .. | .divu .. | .mfhi .. | .mflo ..
  | .jr .. | .jalr .. => ⟨_, rfl⟩
  | .beq rs rt imm => by
    obtain ⟨-, e⟩ | ⟨-, e⟩ := branchIf_cases (eqWord (s.readReg rs) (s.readReg rt)) imm s <;> exact ⟨_, e⟩
  | .bne rs rt imm => by
    obtain ⟨-, e⟩ | ⟨-, e⟩ := branchIf_cases (!eqWord (s.readReg rs) (s.readReg rt)) imm s <;> exact ⟨_, e⟩
  | .lis rd => by
    obtain ⟨f, -, -, e⟩ | ⟨-, e⟩ := execLis_cases rd s <;> exact ⟨_, e⟩
  | .lw rt rs imm => by
    obtain ⟨f, -, -, e⟩ | ⟨-, -, e⟩ | ⟨-, -, -, e⟩ := execLw_cases rt rs imm s <;> exact ⟨_, e⟩
  | .sw rt rs imm => by
    obtain ⟨f, -, -, e⟩ | ⟨-, -, e⟩ | ⟨-, -, -, e⟩ := execSw_cases rt rs imm s <;> exact ⟨_, e⟩

theorem step_total (s : State) : ∃ t, step s = .next t := by
  cases hrun : s.runState with
  | halted => exact ⟨_, step_halted hrun⟩
  | running =>
    cases hstop : s.stopFlag with
    | true => exact ⟨_, step_stopping hrun hstop⟩
    | false =>
      obtain ⟨-, e⟩ | ⟨-, -, e⟩ | ⟨haligned, hbound, -⟩ := s.fetchWord_cases s.pc
      · exact ⟨_, step_of_fetchWord_error hrun hstop e⟩
      · exact ⟨_, step_of_fetchWord_error hrun hstop e⟩
      · cases hdecode : decode (s.wordAt s.pc.toNat) with
        | error e => exact ⟨_, step_of_decode_error hrun hstop ⟨haligned, hbound⟩ hdecode⟩
        | ok i =>
          rw [stepRunsTheDecodedInstruction s i hrun hstop ⟨haligned, hbound⟩ hdecode]
          exact exec_total _ i

/-! ## Runs -/

theorem runSchedule_cons {b : Bool} {bs : List Bool} {s t : State} (h : hostCycle b s = .next t) :
    runSchedule (b :: bs) s = runSchedule bs t := by
  rw [runSchedule, h]

theorem core_run_succ {n : Nat} {s t : State} (h : step s = .next t) :
    Sys2Proof.core.run (n + 1) s = Sys2Proof.core.run n t := by
  have hcore : Sys2Proof.core.step s = .next t := h
  simp only [Host.Core.run, hcore]

/-- Settles O45: the step is total, and a run is steps of the state with or without the request, one an entry. -/
theorem everyStateHasASuccessor : Obligations.EveryStateHasASuccessor := by
  refine fun s => ⟨step_total s, fun stops => ?_⟩
  induction stops generalizing s with
  | nil => exact ⟨s, rfl⟩
  | cons b bs ih =>
    obtain ⟨t, ht⟩ : ∃ t, hostCycle b s = .next t := step_total _
    rw [runSchedule_cons ht]
    exact ih t

/-- Without a request the host's cycle adds nothing to the step (R85). -/
theorem hostCycle_false (s : State) : hostCycle false s = step s := rfl

/-- Settles O47: without a request the host's cycle is the step, so the two runs take the same next state. -/
theorem runWithoutStopIsRepeatedCycles : Obligations.RunWithoutStopIsRepeatedCycles := by
  intro n s
  induction n generalizing s with
  | zero => rfl
  | succ n ih =>
    obtain ⟨t, ht⟩ := step_total s
    rw [List.replicate_succ, runSchedule_cons ((hostCycle_false s).trans ht), core_run_succ ht, ih]

/-- In a halted core the host's cycle changes nothing, request or not (R141). -/
theorem hostCycle_halted {s : State} (h : s.runState = .halted) (b : Bool) : hostCycle b s = .next s := by
  rw [hostCycle, State.requestStop_halted s h, ite_self, step_halted h]

/-- Settles O43: a cycle of a halted core leads back to its state, so every run does. -/
theorem haltedIsTerminal : Obligations.HaltedIsTerminal := by
  refine fun s h => ⟨State.requestStop_halted s h, fun n => ?_, fun stops => ?_⟩
  · induction n with
    | zero => rfl
    | succ n ih => rw [core_run_succ (step_halted h), ih]
  · induction stops with
    | nil => rfl
    | cons b bs ih => rw [runSchedule_cons (hostCycle_halted h b), ih]

/-! ## The engine's state -/

theorem MemFault.OfAccess.mnemonic_mem {i : Instr} {s : State} {f : MemFault} (h : f.OfAccess i s) :
    i.mnemonic ∈ [.lis, .lw, .sw] := by
  obtain ⟨rd, rfl, -⟩ | ⟨rt, rs, imm, rfl | rfl, -⟩ := h <;> simp [Instr.mnemonic]

/-- Settles O41: an instruction that touches the engine's state raised the fault of its own access, and the fault
fits. -/
theorem onlyMemoryAccessesFaultInExecution : Obligations.OnlyMemoryAccessesFaultInExecution := by
  intro i s t h
  obtain hsame | ⟨f, haccess, hfits, rfl⟩ := exec_sameEngine_or_raiseMem h
  · exact .inl hsame
  · refine .inr ⟨haccess.mnemonic_mem, rfl, rfl, ?_⟩
    obtain ⟨hk, ha⟩ | ⟨hk, ha, hb⟩ := hfits
    · exact .inl ⟨congrArg HaltCause.memoryFault hk, ha⟩
    · exact .inr ⟨congrArg HaltCause.memoryFault hk, ha, hb⟩

/-- A step leaves the engine's state alone or takes the core from running to halted with a cause (10_state.md R18,
R20). -/
theorem step_sameEngine_or_halts {s t : State} (h : step s = .next t) :
    SameEngine s t ∨ (s.runState = .running ∧ t.runState = .halted ∧ t.haltCause ≠ .none) := by
  obtain ⟨-, rfl⟩ | ⟨hrun, -, rfl⟩ | ⟨hrun, -, -, f, -, -, rfl⟩ | ⟨hrun, -, -, e, -, rfl⟩ | ⟨hrun, -, -, i, -, hexec⟩ :=
    step_cases h
  · exact .inl ⟨rfl, rfl, rfl, rfl⟩
  · exact .inr ⟨hrun, rfl, by simp⟩
  · exact .inr ⟨hrun, rfl, by simp⟩
  · exact .inr ⟨hrun, rfl, by simp⟩
  · obtain hsame | ⟨f, -, -, rfl⟩ := exec_sameEngine_or_raiseMem hexec
    · exact .inl hsame
    · exact .inr ⟨hrun, rfl, by simp⟩

/-- Settles O44: a step that leaves the engine's state alone writes no cause and halts no running core. -/
theorem haltCauseIsWrittenOnceAtTheHalt : Obligations.HaltCauseIsWrittenOnceAtTheHalt := by
  intro s t h
  obtain ⟨hrunState, -, hcause, -⟩ | ⟨hrun, hhalt, hcause⟩ := step_sameEngine_or_halts h
  · refine ⟨fun hne => absurd hcause hne, fun hrun hhalt => ?_⟩
    rw [hrunState, hrun] at hhalt
    cases hhalt
  · exact ⟨fun _ => ⟨hrun, hhalt⟩, fun _ _ => hcause⟩

/-! ## The stop request (10_state.md R19) -/

theorem hostCycle_true_running {s : State} (h : s.runState = .running) :
    hostCycle true s = .next ({ s with stopFlag := true } : State).haltStop := by
  rw [hostCycle, if_pos rfl, State.requestStop_running s h]
  exact step_stopping h rfl

theorem sameProgramState_stopped (s : State) : SameProgramState s ({ s with stopFlag := true } : State).haltStop :=
  ⟨fun _ _ => rfl, ⟨rfl, rfl⟩, rfl, fun _ => rfl, ⟨rfl, rfl⟩, rfl⟩

/-- A second request finds the flag set already. -/
theorem hostCycle_stopping {s : State} (h : s.runState = .running) (hflag : s.stopFlag = true) (b : Bool) :
    hostCycle b s = .next s.haltStop := by
  have hrequest : s.requestStop = s := by rw [State.requestStop_running s h, ← hflag]
  rw [hostCycle, hrequest, ite_self, step_stopping h hflag]

/-- Settles O42: in either case the cycle is the stop check's halt, before any fetch. -/
theorem stopRequestHaltsBeforeTheFetch : Obligations.StopRequestHaltsBeforeTheFetch := by
  refine fun s hrun => ⟨?_, fun hflag stop => ?_⟩
  · exact ⟨_, hostCycle_true_running hrun, rfl, rfl, rfl, rfl, sameProgramState_stopped s⟩
  · exact ⟨_, hostCycle_stopping hrun hflag stop, haltedWith_raise s .stop 0#32, sameProgramState_raise s .stop 0#32⟩

end Sys2Proof.Machine

/-! SUPPORT. The decoder's domain (30_encoding.md R60 to R62), read off `decode_mnemonic_iff` and the two dispatches. -/

namespace Sys2Proof

/-- Settles O2: it is the decoder's law `decode_mnemonic_iff`. -/
theorem wordDecodesToItsMatchingRow : Obligations.WordDecodesToItsMatchingRow := decode_mnemonic_iff

/-- Under opcode 0 the decoder rejects the functs that no row lists (R60, R62). -/
theorem decodeR_error_iff (w : Word) :
    (∃ e, decodeR w = .error e) ↔ functOf w ∉ [0x08#6, 0x09#6, 0x10#6, 0x12#6, 0x14#6, 0x18#6, 0x19#6, 0x1A#6, 0x1B#6,
      0x20#6, 0x22#6, 0x2A#6, 0x2B#6] := by
  unfold decodeR
  split
  rotate_right
  · simp_all
  all_goals simp [*]

/-- Under another opcode the decoder rejects the opcodes that no row lists (R61, R62). -/
theorem decodeI_error_iff (w : Word) :
    (∃ e, decodeI w = .error e) ↔ opcodeOf w ∉ [0x04#6, 0x05#6, 0x08#6, 0x23#6, 0x2B#6] := by
  unfold decodeI
  split
  rotate_right
  · simp_all
  all_goals simp [*]

/-- Settles O3: opcode 0 is a listed opcode, so each bullet of R62 speaks of one of the two dispatches. -/
theorem illegalWordsAreRejected : Obligations.IllegalWordsAreRejected := by
  intro w
  by_cases hop : opcodeOf w = 0#6
  · rw [decode_R hop, decodeR_error_iff]
    simp [hop]
  · rw [decode_I hop, decodeI_error_iff]
    simp [hop]

/-- Settles O5: each of the twenty words is evaluated. -/
theorem specWordsDecodeToTheirInstructions : Obligations.SpecWordsDecodeToTheirInstructions :=
  ⟨rfl, rfl, rfl, rfl, rfl, rfl, rfl, rfl, rfl, rfl, rfl, rfl, rfl, rfl, rfl, rfl, rfl, rfl, rfl, rfl⟩

end Sys2Proof

/-! SUPPORT. The data-side accesses (20_memory.md R33, R34, R36) and what `lw` and `sw` do on each answer
(45_loadstore.md R126, R127): a fault is a halt, a word read is one register write, a word written is the access's own
state. -/

namespace Sys2Proof.Machine

/-! ## The answers of a data-side read -/

theorem State.memRead_of_unaligned (s : State) {a : Word} (h : a.toNat % 4 ≠ 0) :
    s.memRead a = .error { kind := .unaligned, addr := a } := if_pos h

theorem State.memRead_of_port (s : State) {a : Word} (h : a.toNat % 4 = 0) (hport : a = s.cfg.stdinAddr) :
    s.memRead a = .ok s.consoleIn := by
  rw [State.memRead, if_neg (not_not.2 h), if_pos hport]

theorem State.memRead_of_outOfBounds (s : State) {a : Word} (h : a.toNat % 4 = 0) (hport : a ≠ s.cfg.stdinAddr)
    (hbound : s.cfg.memBytes ≤ a.toNat) : s.memRead a = .error { kind := .outOfBounds, addr := a } := by
  rw [State.memRead, if_neg (not_not.2 h), if_neg hport, if_pos hbound]

theorem State.memRead_of_inBounds (s : State) {a : Word} (h : a.toNat % 4 = 0) (hport : a ≠ s.cfg.stdinAddr)
    (hbound : a.toNat < s.cfg.memBytes) : s.memRead a = .ok (s.wordAt a.toNat, s) := by
  rw [State.memRead, if_neg (not_not.2 h), if_neg hport, if_neg (Nat.not_le.2 hbound)]

theorem State.consoleIn_of_some {s : State} {b : Byte} (h : s.cfg.consoleIn[s.inPos]? = some b) :
    s.consoleIn = (sext8 b, { s with inPos := s.inPos + 1 }) := by
  rw [State.consoleIn, h]

theorem State.consoleIn_of_end {s : State} (h : s.cfg.consoleIn.length ≤ s.inPos) :
    s.consoleIn = (Config.eofValue, s) := by
  rw [State.consoleIn, List.getElem?_eq_none h]

/-! ## The answers of a data-side write -/

theorem State.memWrite_of_unaligned (s : State) {a : Word} (v : Word) (h : a.toNat % 4 ≠ 0) :
    s.memWrite a v = .error { kind := .unaligned, addr := a } := if_pos h

theorem State.memWrite_of_port (s : State) {a : Word} (v : Word) (h : a.toNat % 4 = 0) (hport : a = s.cfg.stdoutAddr) :
    s.memWrite a v = .ok (s.consoleOut (v.extractLsb' 0 8)) := by
  rw [State.memWrite, if_neg (not_not.2 h), if_pos hport]

theorem State.memWrite_of_outOfBounds (s : State) {a : Word} (v : Word) (h : a.toNat % 4 = 0)
    (hport : a ≠ s.cfg.stdoutAddr) (hbound : s.cfg.memBytes ≤ a.toNat) :
    s.memWrite a v = .error { kind := .outOfBounds, addr := a } := by
  rw [State.memWrite, if_neg (not_not.2 h), if_neg hport, if_pos hbound]

theorem State.memWrite_of_inBounds (s : State) {a : Word} (v : Word) (h : a.toNat % 4 = 0)
    (hport : a ≠ s.cfg.stdoutAddr) (hbound : a.toNat < s.cfg.memBytes) :
    s.memWrite a v = .ok (s.setWord a.toNat v) := by
  rw [State.memWrite, if_neg (not_not.2 h), if_neg hport, if_neg (Nat.not_le.2 hbound)]

/-! ## What `lw` and `sw` do on each answer -/

theorem exec_lw (rt rs : RegNum) (imm : Half) (s : State) : exec (.lw rt rs imm) s = execLw rt rs imm s := rfl

theorem exec_sw (rt rs : RegNum) (imm : Half) (s : State) : exec (.sw rt rs imm) s = execSw rt rs imm s := rfl

theorem exec_lw_of_memRead_ok {rs : RegNum} {imm : Half} {s : State} {r : Word × State} (rt : RegNum)
    (h : s.memRead (effAddr (s.readReg rs) imm) = .ok r) : exec (.lw rt rs imm) s = .next (r.2.writeReg rt r.1) := by
  rw [exec_lw, execLw, h]

theorem exec_sw_of_memWrite_ok {rt rs : RegNum} {imm : Half} {s t : State}
    (h : s.memWrite (effAddr (s.readReg rs) imm) (s.readReg rt) = .ok t) : exec (.sw rt rs imm) s = .next t := by
  rw [exec_sw, execSw, h]

/-- A load that fails halts the core with the access's own fault and nothing else written (60_exceptions.md R140). -/
theorem exec_lw_halts_of_memRead_error {rs : RegNum} {imm : Half} {s : State} {f : MemFault} (rt : RegNum)
    (h : s.memRead (effAddr (s.readReg rs) imm) = .error f) :
    ∃ t, exec (.lw rt rs imm) s = .next t ∧ HaltedWith (.memoryFault f.kind) f.addr s t ∧ SameProgramState s t := by
  refine ⟨s.raiseMem f, ?_, haltedWith_raiseMem s f, sameProgramState_raiseMem s f⟩
  rw [exec_lw, execLw, h]

/-- A store that fails halts the core with the access's own fault and nothing else written (R140). -/
theorem exec_sw_halts_of_memWrite_error {rt rs : RegNum} {imm : Half} {s : State} {f : MemFault}
    (h : s.memWrite (effAddr (s.readReg rs) imm) (s.readReg rt) = .error f) :
    ∃ t, exec (.sw rt rs imm) s = .next t ∧ HaltedWith (.memoryFault f.kind) f.addr s t ∧ SameProgramState s t := by
  refine ⟨s.raiseMem f, ?_, haltedWith_raiseMem s f, sameProgramState_raiseMem s f⟩
  rw [exec_sw, execSw, h]

theorem exec_lw_of_inBounds {rs : RegNum} {imm : Half} {s : State} {ea : Word} (rt : RegNum)
    (hea : effAddr (s.readReg rs) imm = ea) (haligned : ea.toNat % 4 = 0) (hport : ea ≠ s.cfg.stdinAddr)
    (hbound : ea.toNat < s.cfg.memBytes) : exec (.lw rt rs imm) s = .next (s.writeReg rt (s.wordAt ea.toNat)) := by
  subst hea
  exact exec_lw_of_memRead_ok rt (s.memRead_of_inBounds haligned hport hbound)

/-- A load from the input port with input left delivers the next byte, sign-extended, and consumes it (R36). -/
theorem exec_lw_of_input {rs : RegNum} {imm : Half} {s : State} {b : Byte} (rt : RegNum)
    (haligned : (effAddr (s.readReg rs) imm).toNat % 4 = 0) (hport : effAddr (s.readReg rs) imm = s.cfg.stdinAddr)
    (hinput : s.cfg.consoleIn[s.inPos]? = some b) :
    exec (.lw rt rs imm) s = .next (({ s with inPos := s.inPos + 1 } : State).writeReg rt (sext8 b)) := by
  have hread := s.memRead_of_port haligned hport
  rw [State.consoleIn_of_some hinput] at hread
  exact exec_lw_of_memRead_ok rt hread

/-- A load from the input port at the end of the input delivers `EOF_VALUE` (R36). -/
theorem exec_lw_of_end {rs : RegNum} {imm : Half} {s : State} (rt : RegNum)
    (haligned : (effAddr (s.readReg rs) imm).toNat % 4 = 0) (hport : effAddr (s.readReg rs) imm = s.cfg.stdinAddr)
    (hend : s.cfg.consoleIn.length ≤ s.inPos) :
    exec (.lw rt rs imm) s = .next (s.writeReg rt Config.eofValue) := by
  have hread := s.memRead_of_port haligned hport
  rw [State.consoleIn_of_end hend] at hread
  exact exec_lw_of_memRead_ok rt hread

theorem exec_sw_of_inBounds {rs : RegNum} {imm : Half} {s : State} {ea : Word} (rt : RegNum)
    (hea : effAddr (s.readReg rs) imm = ea) (haligned : ea.toNat % 4 = 0) (hport : ea ≠ s.cfg.stdoutAddr)
    (hbound : ea.toNat < s.cfg.memBytes) : exec (.sw rt rs imm) s = .next (s.setWord ea.toNat (s.readReg rt)) := by
  subst hea
  exact exec_sw_of_memWrite_ok (s.memWrite_of_inBounds _ haligned hport hbound)

end Sys2Proof.Machine

/-! SUPPORT. What an instruction leaves alone, register by register and component by component (10_state.md R12 to R23):
each statement is one reading of `exec_cases`. -/

namespace Sys2Proof.Machine

/-! ## General registers -/

theorem sameRegsExcept_writeReg (s : State) (r : RegNum) (v : Word) : SameRegsExcept [r] s (s.writeReg r v) :=
  (onlyReg_writeReg s r v).1

/-- Settles O7: of the effects of an instruction only the register writes touch a register, each the row's own. -/
theorem onlyTheDestinationRegisterChanges : Obligations.OnlyTheDestinationRegisterChanges := by
  intro i s t h
  obtain ⟨r, v, hdest, -, rfl⟩ | ⟨v, -, rfl⟩ | ⟨rs, rfl, rfl⟩ | ⟨rs, rfl, rfl⟩ | ⟨rs, rt, imm, -, rfl | rfl⟩ |
    ⟨rd, rfl, -, rfl⟩ | ⟨rt, rs, imm, rfl, -, rfl⟩ | ⟨rt, rs, imm, rfl, -, rfl⟩ | ⟨rt, rs, imm, rfl, -, -, -, rfl⟩ |
    ⟨f, -, -, -, rfl⟩ := exec_cases h
  · exact hdest ▸ sameRegsExcept_writeReg s r v
  · exact fun _ _ => rfl
  · exact fun _ _ => rfl
  · exact sameRegsExcept_writeReg s linkReg s.pc
  · exact fun _ _ => rfl
  · exact fun _ _ => rfl
  · exact sameRegsExcept_writeReg s rd _
  · intro r hr
    rw [sameRegsExcept_writeReg _ rt _ r hr, State.consoleIn_readReg]
  · exact fun _ _ => rfl
  · exact fun _ _ => rfl
  · exact fun _ _ => rfl

/-- Leaving out register 0 leaves out nothing: it reads as 0 in every state (R12). -/
theorem sameRegs_of_sameRegsExcept_zero {s t : State} (h : SameRegsExcept [0#5] s t) : SameRegsExcept [] s t := by
  intro r _
  by_cases hr : r = 0#5
  · rw [hr, State.readReg_zero, State.readReg_zero]
  · exact h r (by simpa using hr)

/-- Settles O6: the frame is that of the destination register; `lis` and `lw` with destination 0 write nothing after
their other effect, because a write to register 0 is the identity. -/
theorem registerZeroIsHardwired : Obligations.RegisterZeroIsHardwired := by
  refine ⟨State.readReg_zero, State.writeReg_zero, fun i s t hdest h => ?_, fun s hfetch => ?_,
    fun s rs imm hport haligned hinput => ?_⟩
  · have hframe := onlyTheDestinationRegisterChanges i s t h
    rw [hdest] at hframe
    exact sameRegs_of_sameRegsExcept_zero hframe
  · exact exec_lis_of_fetchable 0#5 hfetch
  · exact exec_lw_of_input 0#5 (hport ▸ haligned) hport (List.getElem?_eq_getElem hinput)

/-! ## HI, LO and the pc -/

/-- Settles O19: of the effects of an instruction only the pair write touches HI or LO. -/
theorem onlyMultiplyAndDivideWriteHiLo : Obligations.OnlyMultiplyAndDivideWriteHiLo := by
  intro i s t h hchanged
  obtain ⟨r, v, -, -, rfl⟩ | ⟨v, hmuldiv, rfl⟩ | ⟨rs, -, rfl⟩ | ⟨rs, -, rfl⟩ | ⟨rs, rt, imm, -, rfl | rfl⟩ |
    ⟨rd, -, -, rfl⟩ | ⟨rt, rs, imm, -, -, rfl⟩ | ⟨rt, rs, imm, -, -, rfl⟩ | ⟨rt, rs, imm, -, -, -, -, rfl⟩ |
    ⟨f, -, -, -, rfl⟩ := exec_cases h
  pick_goal 2
  · exact hmuldiv
  all_goals exact absurd (by simp [SameHiLo]) hchanged

/-- What an instruction does to the pc: nothing, or a jump to a register, or a branch, or the skip of a literal (R16).
-/
theorem exec_pc_cases {i : Instr} {s t : State} (h : exec i s = .next t) :
    t.pc = s.pc ∨ (∃ rs, (i = .jr rs ∨ i = .jalr rs) ∧ t.pc = s.readReg rs) ∨
      (∃ rs rt imm, (i = .beq rs rt imm ∨ i = .bne rs rt imm) ∧ t.pc = branchTarget s.pc imm) ∨
      ∃ rd, i = .lis rd ∧ t.pc = s.pc + 4#32 := by
  obtain ⟨r, v, -, -, rfl⟩ | ⟨v, -, rfl⟩ | ⟨rs, hi, rfl⟩ | ⟨rs, hi, rfl⟩ | ⟨rs, rt, imm, hi, rfl | rfl⟩ |
    ⟨rd, hi, -, rfl⟩ | ⟨rt, rs, imm, -, -, rfl⟩ | ⟨rt, rs, imm, -, -, rfl⟩ | ⟨rt, rs, imm, -, -, -, -, rfl⟩ |
    ⟨f, -, -, -, rfl⟩ := exec_cases h
  case inr.inr.inl => exact .inr (.inl ⟨rs, .inl hi, rfl⟩)
  case inr.inr.inr.inl => exact .inr (.inl ⟨rs, .inr hi, rfl⟩)
  case inr.inr.inr.inr.inl.inr => exact .inr (.inr (.inl ⟨rs, rt, imm, hi, rfl⟩))
  case inr.inr.inr.inr.inr.inl => exact .inr (.inr (.inr ⟨rd, hi, by simp⟩))
  all_goals exact .inl (by simp)

/-- Settles O25: the four ways to another pc name their instructions. -/
theorem onlyControlTransfersAndLisWriteThePc : Obligations.OnlyControlTransfersAndLisWriteThePc := by
  intro i s t h hchanged
  obtain hsame | ⟨rs, rfl | rfl, -⟩ | ⟨rs, rt, imm, rfl | rfl, -⟩ | ⟨rd, rfl, -⟩ := exec_pc_cases h
  · exact absurd hsame hchanged
  all_goals simp [Instr.mnemonic]

/-- Adding four to an aligned address gives an aligned one, also where it wraps (20_memory.md R40). -/
theorem add_four_aligned {a : Word} (h : a.toNat % 4 = 0) : (a + 4#32).toNat % 4 = 0 := by
  rw [BitVec.toNat_add, BitVec.toNat_ofNat]
  omega

/-- A branch moves by a multiple of four, so it leaves an aligned pc aligned (R40). -/
theorem branchTarget_aligned {pc : Word} (h : pc.toNat % 4 = 0) (imm : Half) : (branchTarget pc imm).toNat % 4 = 0 := by
  have := branchTarget_toNat pc imm
  omega

/-- Settles O26: the skip of `lis` and a branch keep the pc aligned. -/
theorem onlyRegisterJumpsMisalignThePc : Obligations.OnlyRegisterJumpsMisalignThePc := by
  intro s t i haligned h hmisaligned
  obtain hsame | ⟨rs, rfl | rfl, -⟩ | ⟨rs, rt, imm, -, hbranch⟩ | ⟨rd, -, hskip⟩ := exec_pc_cases h
  · exact absurd (hsame ▸ haligned) hmisaligned
  · simp [Instr.mnemonic]
  · simp [Instr.mnemonic]
  · exact absurd (hbranch ▸ branchTarget_aligned haligned imm) hmisaligned
  · exact absurd (hskip ▸ add_four_aligned haligned) hmisaligned

/-! ## Memory and the console -/

/-- Settles O30: memory changed, so a `sw` stored its word, and outside that word every byte reads as before. -/
theorem onlyStoreWordChangesMemory : Obligations.OnlyStoreWordChangesMemory := by
  intro i s t a h hchanged
  obtain hsame | ⟨rt, rs, imm, hi, haligned, hport, hbound, rfl⟩ := exec_mem_cases h
  · exact absurd (State.byteAt_congr hsame (exec_cfg h) a) hchanged
  · have hinside : ¬(a < (effAddr (s.readReg rs) imm).toNat ∨ (effAddr (s.readReg rs) imm).toNat + 4 ≤ a) :=
      fun hout => hchanged (State.byteAt_setWord_ne s _ hout)
    exact ⟨rt, rs, imm, hi, by omega, by omega, haligned, hbound, hport⟩

/-- Settles O33: the position changed, so a `lw` read the input port, and there was a byte to consume. -/
theorem inputIsConsumedOneByteALoad : Obligations.InputIsConsumedOneByteALoad := by
  intro i s t h hchanged
  obtain hsame | ⟨hload, hpos⟩ := exec_inPos_cases h
  · exact absurd hsame hchanged
  · obtain ⟨b, hb, e⟩ | ⟨-, e⟩ := s.consoleIn_cases <;> rw [e] at hpos
    · exact ⟨hpos, (List.getElem?_eq_some_iff.1 hb).1, hload⟩
    · exact absurd hpos hchanged

/-- Settles O34: of the effects of an instruction only the output access appends to OUT. -/
theorem outputOnlyGrows : Obligations.OutputOnlyGrows := by
  intro i s t h hchanged
  obtain ⟨r, v, -, -, rfl⟩ | ⟨v, -, rfl⟩ | ⟨rs, -, rfl⟩ | ⟨rs, -, rfl⟩ | ⟨rs, rt, imm, -, rfl | rfl⟩ |
    ⟨rd, -, -, rfl⟩ | ⟨rt, rs, imm, -, -, rfl⟩ | ⟨rt, rs, imm, hi, hport, rfl⟩ | ⟨rt, rs, imm, -, -, -, -, rfl⟩ |
    ⟨f, -, -, -, rfl⟩ := exec_cases h
  pick_goal 9
  · exact ⟨rt, rs, imm, hi, hport, by rw [State.consoleOut_out, lowByte_eq_setWidth]⟩
  all_goals exact absurd (by simp) hchanged

/-! ## The console input -/

@[simp] theorem State.withInput_readReg (s : State) (bytes : List Byte) (r : RegNum) :
    (s.withInput bytes).readReg r = s.readReg r := rfl

theorem State.withInput_writeReg (s : State) (bytes : List Byte) (r : RegNum) (v : Word) :
    (s.withInput bytes).writeReg r v = (s.writeReg r v).withInput bytes := by
  unfold State.writeReg
  split <;> rfl

/-- A store does the same whatever the input is. -/
theorem State.withInput_memWrite (s : State) (bytes : List Byte) (a v : Word) :
    (s.withInput bytes).memWrite a v = (s.memWrite a v).map fun t => t.withInput bytes := by
  simp only [State.memWrite, apply_ite (Except.map _)]
  rfl

theorem branchIf_withInput {c : Bool} {imm : Half} {s t : State} (bytes : List Byte)
    (h : branchIf c imm s = .next t) : branchIf c imm (s.withInput bytes) = .next (t.withInput bytes) := by
  cases c <;> cases h <;> rfl

/-- The literal is an instruction-side read, which never looks at the console input (20_memory.md R35). -/
theorem execLis_withInput {rd : RegNum} {s t : State} (bytes : List Byte) (h : execLis rd s = .next t) :
    execLis rd (s.withInput bytes) = .next (t.withInput bytes) := by
  have hread : (s.withInput bytes).fetchWord (s.withInput bytes).pc = s.fetchWord s.pc := rfl
  rw [execLis] at h
  rw [execLis, hread]
  cases hfetch : s.fetchWord s.pc with
  | error f =>
    rw [hfetch] at h
    cases h
    rfl
  | ok v =>
    rw [hfetch] at h
    cases h
    exact congrArg (fun u : State => Host.Outcome.next u.advance) (State.withInput_writeReg ..)

theorem execSw_withInput {rt rs : RegNum} {imm : Half} {s t : State} (bytes : List Byte)
    (h : execSw rt rs imm s = .next t) : execSw rt rs imm (s.withInput bytes) = .next (t.withInput bytes) := by
  rw [execSw] at h
  rw [execSw, State.withInput_readReg, State.withInput_readReg, State.withInput_memWrite]
  cases hwrite : s.memWrite (effAddr (s.readReg rs) imm) (s.readReg rt) with
  | error f =>
    rw [hwrite] at h
    cases h
    rfl
  | ok u =>
    rw [hwrite] at h
    cases h
    rfl

/-- Settles O35: only the meaning of `lw` reads `CONSOLE_IN`; every other commutes with a change of the input. -/
theorem onlyLoadsLearnTheInput : Obligations.OnlyLoadsLearnTheInput := by
  intro i s t bytes hnot h
  cases i with
  | add | sub | slt | sltu | addi | mfhi | mflo =>
    cases h
    exact congrArg Host.Outcome.next (State.withInput_writeReg ..)
  | mult | multu | div | divu | jr =>
    cases h
    rfl
  | jalr rs =>
    cases h
    exact congrArg (fun u : State => Host.Outcome.next (u.setPc (s.readReg rs))) (State.withInput_writeReg ..)
  | beq | bne => exact branchIf_withInput bytes h
  | lis => exact execLis_withInput bytes h
  | sw => exact execSw_withInput bytes h
  | lw => exact absurd rfl hnot

end Sys2Proof.Machine

/-! SUPPORT. Differences, comparisons and the moves (41_alu.md R91 to R95; 42_muldiv.md R104, R105). Each is one
register write in every state; what is left to say is the value. -/

namespace Sys2Proof.Machine

/-! ## The values as integers -/

/-- A difference of words is the difference of their numbers modulo 2^32 (R91). -/
theorem sub_toNat_int (a b : Word) : ((a - b).toNat : Int) = ((a.toNat : Int) - (b.toNat : Int)) % 2 ^ 32 := by
  have := a.isLt
  have := b.isLt
  rw [BitVec.toNat_sub]
  omega

/-- A number modulo 2^32, read as signed, is the number modulo 2^32. -/
theorem bmod_sub_self_emod (z : Int) : (z.bmod (2 ^ 32) - z) % 2 ^ 32 = 0 :=
  Int.emod_eq_zero_of_dvd Int.dvd_bmod_sub_self

theorem boolWord_decide (p : Prop) [Decidable p] : boolWord (decide p) = if p then 1#32 else 0#32 := by
  by_cases h : p <;> simp [boolWord, h]

theorem State.readReg_writeReg_of_ne_zero (s : State) {r : RegNum} (v : Word) (h : r ≠ 0#5) :
    (s.writeReg r v).readReg r = v := by
  rw [State.readReg_writeReg_same, if_neg h]

/-! ## The meanings, one register write each -/

theorem exec_sub (rd rs rt : RegNum) (s : State) :
    exec (.sub rd rs rt) s = .next (s.writeReg rd (s.readReg rs - s.readReg rt)) := rfl

theorem exec_slt (rd rs rt : RegNum) (s : State) :
    exec (.slt rd rs rt) s = .next (s.writeReg rd (boolWord (ltSigned (s.readReg rs) (s.readReg rt)))) := rfl

theorem exec_sltu (rd rs rt : RegNum) (s : State) :
    exec (.sltu rd rs rt) s = .next (s.writeReg rd (boolWord (ltUnsigned (s.readReg rs) (s.readReg rt)))) := rfl

theorem exec_mfhi (rd : RegNum) (s : State) : exec (.mfhi rd) s = .next (s.writeReg rd s.hi) := rfl

theorem exec_mflo (rd : RegNum) (s : State) : exec (.mflo rd) s = .next (s.writeReg rd s.lo) := rfl

/-- Settles O9: the value written is the difference of the two numbers modulo 2^32. -/
theorem subWritesTheWrappedDifference : Obligations.SubWritesTheWrappedDifference := by
  refine ⟨fun w h => decode_of_match (m := .sub) h, fun rd rs rt s =>
    ⟨encode_eq_canonicalWord (.sub rd rs rt), _, exec_sub rd rs rt s, onlyReg_writeReg .., ?_⟩⟩
  rw [State.readReg_writeReg_same_toNat, Nat.cast_ite, Nat.cast_zero, sub_toNat_int]

/-- Settles O10: the value written is the comparison of the signed integers as a word. -/
theorem sltComparesSigned : Obligations.SltComparesSigned := by
  refine ⟨fun w h => decode_of_match (m := .slt) h, fun rd rs rt s =>
    ⟨encode_eq_canonicalWord (.slt rd rs rt), _, exec_slt rd rs rt s, onlyReg_writeReg .., ?_⟩⟩
  rw [State.readReg_writeReg_same, ltSigned, boolWord_decide]

/-- Settles O11: the value written is the comparison of the unsigned integers as a word. -/
theorem sltuComparesUnsigned : Obligations.SltuComparesUnsigned := by
  refine ⟨fun w h => decode_of_match (m := .sltu) h, fun rd rs rt s =>
    ⟨encode_eq_canonicalWord (.sltu rd rs rt), _, exec_sltu rd rs rt s, onlyReg_writeReg .., ?_⟩⟩
  rw [State.readReg_writeReg_same, ltUnsigned, boolWord_decide]

/-- Settles O18: the value written is HI, or LO. -/
theorem movesCopyHiAndLo : Obligations.MovesCopyHiAndLo := by
  refine ⟨fun w h => decode_of_match (m := .mfhi) h, fun w h => decode_of_match (m := .mflo) h, fun rd s =>
    ⟨encode_eq_canonicalWord (.mfhi rd), encode_eq_canonicalWord (.mflo rd), ?_, ?_⟩⟩
  · exact ⟨_, exec_mfhi rd s, onlyReg_writeReg .., State.readReg_writeReg_same ..⟩
  · exact ⟨_, exec_mflo rd s, onlyReg_writeReg .., State.readReg_writeReg_same ..⟩

/-- The five arithmetic instructions are one write to their destination, in every state (R95). -/
theorem exec_arithmetic {i : Instr} {r : RegNum} (s : State) (hi : i.mnemonic ∈ [.add, .sub, .slt, .sltu, .addi])
    (hdest : destRegs i = [r]) : ∃ v, exec i s = .next (s.writeReg r v) := by
  cases i with
  | add | sub | slt | sltu | addi =>
    cases hdest
    exact ⟨_, rfl⟩
  | _ => simp [Instr.mnemonic] at hi

/-- Settles O13: the frame is that of the one write, which register 0 discards; the values of `add`, `sub` and `addi`
are the exact integers modulo 2^32. -/
theorem arithmeticNeverTraps : Obligations.ArithmeticNeverTraps := by
  refine ⟨fun i r s hi hdest => ?_, fun rd rs rt imm s hrd => ⟨fun t h => ?_, fun t h => ?_, fun t h => ?_⟩⟩
  · obtain ⟨v, h⟩ := exec_arithmetic s hi hdest
    refine ⟨_, h, onlyReg_writeReg s r v, ?_⟩
    rintro rfl
    exact State.writeReg_zero s v
  · obtain rfl := Host.Outcome.next.inj ((exec_add rd rs rt s).symm.trans h)
    rw [State.readReg_writeReg_of_ne_zero _ _ hrd, BitVec.toInt_add]
    exact bmod_sub_self_emod _
  · obtain rfl := Host.Outcome.next.inj ((exec_sub rd rs rt s).symm.trans h)
    rw [State.readReg_writeReg_of_ne_zero _ _ hrd, BitVec.toInt_sub]
    exact bmod_sub_self_emod _
  · obtain rfl := Host.Outcome.next.inj ((exec_addi rd rs imm s).symm.trans h)
    rw [State.readReg_writeReg_of_ne_zero _ _ hrd, BitVec.toInt_add, sext16_toInt]
    exact bmod_sub_self_emod _

end Sys2Proof.Machine

/-! SUPPORT. Products and quotients (42_muldiv.md R100 to R103). Each instruction writes the pair HI, LO in every
state, so what is left to say is the pair as integers. -/

namespace Sys2Proof.Machine

theorem exec_mult (rs rt : RegNum) (s : State) :
    exec (.mult rs rt) s = .next (s.setHiLo (mulSigned (s.readReg rs) (s.readReg rt))) := rfl

theorem exec_multu (rs rt : RegNum) (s : State) :
    exec (.multu rs rt) s = .next (s.setHiLo (mulUnsigned (s.readReg rs) (s.readReg rt))) := rfl

theorem exec_div (rs rt : RegNum) (s : State) :
    exec (.div rs rt) s = .next (s.setHiLo (divSigned s.cfg.divOvf (s.readReg rs) (s.readReg rt))) := rfl

theorem exec_divu (rs rt : RegNum) (s : State) :
    exec (.divu rs rt) s = .next (s.setHiLo (divUnsigned (s.readReg rs) (s.readReg rt))) := rfl

/-! ## Products -/

/-- A product of two signed words fits 64 bits, so the joined halves are exact (R100). -/
theorem mulSigned_toInt (a b : Word) : ((mulSigned a b).hi ++ (mulSigned a b).lo).toInt = a.toInt * b.toInt := by
  have hle : a.toInt * b.toInt ≤ 2 ^ 62 := BitVec.toInt_mul_toInt_le
  have hge : -2 ^ 62 ≤ a.toInt * b.toInt := BitVec.le_toInt_mul_toInt
  rw [mulSigned, splitProduct_append]
  exact BitVec.toInt_ofInt_eq_self (by omega) (by omega) (by omega)

theorem append_toNat (h l : Word) : (h ++ l).toNat = h.toNat * 2 ^ 32 + l.toNat := by
  rw [BitVec.toNat_append, ← Nat.shiftLeft_add_eq_or_of_lt l.isLt, Nat.shiftLeft_eq]

/-- A product of two unsigned words fits 64 bits, so the joined halves are exact (R101). -/
theorem mulUnsigned_toNat (a b : Word) :
    (mulUnsigned a b).hi.toNat * 2 ^ 32 + (mulUnsigned a b).lo.toNat = a.toNat * b.toNat := by
  rw [← append_toNat, mulUnsigned, splitProduct_append, BitVec.toNat_ofNat]
  exact Nat.mod_eq_of_lt BitVec.toNat_mul_toNat_lt

/-- Settles O14: the pair written joins to the exact signed product. -/
theorem multLeavesTheSignedProduct : Obligations.MultLeavesTheSignedProduct :=
  ⟨fun _ h => decode_of_match (m := .mult) h, fun rs rt s =>
    ⟨encode_eq_canonicalWord (.mult rs rt), _, exec_mult rs rt s, onlyHiLo_setHiLo .., mulSigned_toInt _ _⟩⟩

/-- Settles O15: the pair written joins to the exact unsigned product. -/
theorem multuLeavesTheUnsignedProduct : Obligations.MultuLeavesTheUnsignedProduct :=
  ⟨fun _ h => decode_of_match (m := .multu) h, fun rs rt s =>
    ⟨encode_eq_canonicalWord (.multu rs rt), _, exec_multu rs rt s, onlyHiLo_setHiLo .., mulUnsigned_toNat _ _⟩⟩

/-! ## Quotients -/

/-- Where the division is not the one overflow, the quotient rounded toward zero fits a word (R102). -/
theorem tdiv_toInt {a b : Word} (h : ¬(a.toInt = -2 ^ 31 ∧ b.toInt = -1)) :
    (BitVec.ofInt 32 (a.toInt.tdiv b.toInt)).toInt = a.toInt.tdiv b.toInt := by
  have hne : a ≠ BitVec.intMin 32 ∨ b ≠ -1#32 := by
    by_contra hov
    push Not at hov
    obtain ⟨rfl, rfl⟩ := hov
    exact h (by decide)
  rw [← BitVec.toInt_sdiv_of_ne_or_ne a b hne, BitVec.ofInt_toInt]

/-- The remainder of a signed division fits a word (R102). -/
theorem tmod_toInt (a b : Word) : (BitVec.ofInt 32 (a.toInt.tmod b.toInt)).toInt = a.toInt.tmod b.toInt := by
  rw [← BitVec.toInt_srem, BitVec.ofInt_toInt]

theorem natAbs_tmod_lt (a : Int) {b : Int} (h : b ≠ 0) : (a.tmod b).natAbs < b.natAbs := by
  rw [Int.natAbs_tmod]
  exact Nat.mod_lt _ (Int.natAbs_pos.2 h)

/-- Settles O16: the cases are those of the division; in the last the pair is the quotient and the remainder, both of
which fit their words. -/
theorem divLeavesQuotientAndRemainder : Obligations.DivLeavesQuotientAndRemainder := by
  refine ⟨fun w h => decode_of_match (m := .div) h, ?_⟩
  rintro rs rt s _ _ rfl rfl
  refine ⟨encode_eq_canonicalWord (.div rs rt), _, exec_div rs rt s, onlyHiLo_setHiLo .., ?_⟩
  rw [State.setHiLo_hi, State.setHiLo_lo, divSigned]
  split_ifs with hzero hov
  · exact ⟨rfl, rfl⟩
  · exact ⟨rfl, rfl⟩
  · rw [tdiv_toInt hov, tmod_toInt]
    exact ⟨rfl, rfl, (Int.mul_tdiv_add_tmod _ _).symm, natAbs_tmod_lt _ hzero⟩

/-- Settles O17: the cases are those of the division; a quotient and a remainder of words fit words. -/
theorem divuLeavesQuotientAndRemainder : Obligations.DivuLeavesQuotientAndRemainder := by
  refine ⟨fun w h => decode_of_match (m := .divu) h, ?_⟩
  rintro rs rt s _ _ rfl rfl
  refine ⟨encode_eq_canonicalWord (.divu rs rt), _, exec_divu rs rt s, onlyHiLo_setHiLo .., ?_⟩
  rw [State.setHiLo_hi, State.setHiLo_lo, divUnsigned]
  split_ifs with hzero
  · exact ⟨rfl, rfl⟩
  · have hquot := (Nat.div_le_self (s.readReg rs).toNat (s.readReg rt).toNat).trans_lt (s.readReg rs).isLt
    have hrem := Nat.mod_lt (s.readReg rs).toNat (Nat.pos_of_ne_zero hzero)
    rw [BitVec.toNat_ofNat, BitVec.toNat_ofNat, Nat.mod_eq_of_lt hquot,
      Nat.mod_eq_of_lt (hrem.trans (s.readReg rt).isLt)]
    exact ⟨rfl, rfl, hrem⟩

end Sys2Proof.Machine

/-! SUPPORT. Control transfers (44_control.md R115 to R120): each writes the pc, and `jalr` its link, in every state;
what a pc that cannot be fetched does is the next cycle's. -/

namespace Sys2Proof.Machine

theorem exec_jr (rs : RegNum) (s : State) : exec (.jr rs) s = .next (s.setPc (s.readReg rs)) := rfl

theorem exec_jalr (rs : RegNum) (s : State) :
    exec (.jalr rs) s = .next ((s.writeReg linkReg s.pc).setPc (s.readReg rs)) := rfl

/-- R115: a jump to the target where the registers are equal. -/
theorem exec_beq (rs rt : RegNum) (imm : Half) (s : State) :
    exec (.beq rs rt imm) s =
      .next (if s.readReg rs = s.readReg rt then s.setPc (branchTarget s.pc imm) else s) := by
  change branchIf (decide (s.readReg rs = s.readReg rt)) imm s = _
  by_cases heq : s.readReg rs = s.readReg rt <;> simp [branchIf, heq]

/-- R116: a jump to the target where the registers differ. -/
theorem exec_bne (rs rt : RegNum) (imm : Half) (s : State) :
    exec (.bne rs rt imm) s =
      .next (if s.readReg rs = s.readReg rt then s else s.setPc (branchTarget s.pc imm)) := by
  change branchIf (!decide (s.readReg rs = s.readReg rt)) imm s = _
  by_cases heq : s.readReg rs = s.readReg rt <;> simp [branchIf, heq]

/-- Settles O21: taken or not, only the pc is written, and the target is the integer sum modulo 2^32. -/
theorem beqBranchesWhenEqual : Obligations.BeqBranchesWhenEqual := by
  refine ⟨fun w h => decode_of_match (m := .beq) h, fun rs rt imm s =>
    ⟨encode_eq_canonicalWord (.beq rs rt imm), _, exec_beq rs rt imm s, ?_⟩⟩
  split_ifs with heq
  · exact ⟨onlyPc_setPc .., branchTarget_toNat ..⟩
  · exact ⟨onlyPc_refl .., rfl⟩

/-- Settles O22: taken or not, only the pc is written, and the target is the integer sum modulo 2^32. -/
theorem bneBranchesWhenNotEqual : Obligations.BneBranchesWhenNotEqual := by
  refine ⟨fun w h => decode_of_match (m := .bne) h, fun rs rt imm s =>
    ⟨encode_eq_canonicalWord (.bne rs rt imm), _, exec_bne rs rt imm s, ?_⟩⟩
  split_ifs with heq
  · exact ⟨onlyPc_refl .., rfl⟩
  · exact ⟨onlyPc_setPc .., branchTarget_toNat ..⟩

/-- Settles O23: the one write is the pc's. -/
theorem jrJumpsToTheRegister : Obligations.JrJumpsToTheRegister :=
  ⟨fun _ h => decode_of_match (m := .jr) h, fun rs s =>
    ⟨encode_eq_canonicalWord (.jr rs), _, exec_jr rs s, onlyPc_setPc .., rfl⟩⟩

theorem linkReg_ne_zero : linkReg ≠ 0#5 := by decide

/-- Settles O24: the target is read before the link is written, so `jalr $31` jumps to the old value too. -/
theorem jalrLinksAndJumps : Obligations.JalrLinksAndJumps :=
  ⟨fun _ h => decode_of_match (m := .jalr) h, fun rs s =>
    ⟨encode_eq_canonicalWord (.jalr rs), _, exec_jalr rs s, onlyPcAndReg_writeReg_setPc ..,
      State.readReg_writeReg_of_ne_zero s s.pc linkReg_ne_zero, rfl⟩⟩

/-- A control transfer leaves the engine's state alone, for it makes no access (R120). -/
theorem sameEngine_of_control {i : Instr} {s t : State} (hi : i.mnemonic ∈ [.beq, .bne, .jr, .jalr])
    (h : exec i s = .next t) : SameEngine s t := by
  obtain hsame | ⟨f, haccess, -, -⟩ := exec_sameEngine_or_raiseMem h
  · exact hsame
  · obtain ⟨rd, rfl, -⟩ | ⟨rt, rs, imm, rfl | rfl, -⟩ := haccess <;> simp [Instr.mnemonic] at hi

/-- A running core whose pc cannot be fetched halts in the next cycle, with the pc recorded (R120). -/
theorem step_of_not_fetchable {s : State} (hrun : s.runState = .running) (hstop : s.stopFlag = false)
    (hfetch : ¬s.fetchable) :
    ∃ t, step s = .next t ∧ SameProgramState s t ∧
      HaltedWith (.memoryFault (if s.pc.toNat % 4 = 0 then .outOfBounds else .unaligned)) s.pc s t := by
  obtain ⟨hunaligned, houtOfBounds⟩ := fetchFaultsLeaveThePc s hrun hstop
  by_cases haligned : s.pc.toNat % 4 = 0
  · have hbound : s.cfg.memBytes ≤ s.pc.toNat := Nat.not_lt.1 fun hlt => hfetch ⟨haligned, hlt⟩
    obtain ⟨t, h, hhalt, hframe⟩ := houtOfBounds haligned hbound
    exact ⟨t, h, hframe, by rwa [if_pos haligned]⟩
  · obtain ⟨t, h, hhalt, hframe⟩ := hunaligned haligned
    exact ⟨t, h, hframe, by rwa [if_neg haligned]⟩

/-- Settles O27: a control transfer leaves the engine running, so the cycle after it is the fetch fault or, with a stop
request, the stop check's halt; that a branch keeps the pc aligned is O26. -/
theorem badTargetsFaultAtTheNextFetch : Obligations.BadTargetsFaultAtTheNextFetch := by
  intro i s hi
  obtain ⟨t, h⟩ := exec_total s i
  have hengine := sameEngine_of_control hi h
  refine ⟨t, h, hengine, ?_, ?_, fun hbranch haligned => ?_, fun hrun hstop hfetch => ?_⟩
  · rintro rs (rfl | rfl)
    · obtain rfl := Host.Outcome.next.inj ((exec_jr rs s).symm.trans h)
      rfl
    · obtain rfl := Host.Outcome.next.inj ((exec_jalr rs s).symm.trans h)
      rfl
  · rintro rs rfl
    obtain rfl := Host.Outcome.next.inj ((exec_jalr rs s).symm.trans h)
    exact State.readReg_writeReg_of_ne_zero s s.pc linkReg_ne_zero
  · by_contra hmisaligned
    have hjump := onlyRegisterJumpsMisalignThePc s t i haligned h hmisaligned
    cases i <;> simp [Instr.mnemonic] at hbranch hjump
  · obtain ⟨hrunState, hflag, -, -⟩ := hengine
    exact ⟨step_of_not_fetchable (hrunState.trans hrun) (hflag.trans hstop) hfetch,
      _, hostCycle_true_running (hrunState.trans hrun), sameProgramState_stopped t, rfl, rfl, rfl⟩

end Sys2Proof.Machine

/-! SUPPORT. Loads, stores and the memory they share (45_loadstore.md R126, R127; 20_memory.md R39 to R47): the
outcomes of `lw` and `sw` case by case, and what a load or a fetch after a store reads. -/

namespace Sys2Proof.Machine

/-- Settles O28: the five answers of the data-side read, the end of the input being the second of the port's two. -/
theorem lwLoadsAWordOrAnInputByteOrHalts : Obligations.LwLoadsAWordOrAnInputByteOrHalts := by
  refine ⟨fun w h => decode_of_match (m := .lw) h, ?_⟩
  rintro rt rs imm s _ rfl
  refine ⟨encode_eq_canonicalWord (.lw rt rs imm), effAddr_toNat .., fun haligned hport hbound => ?_,
    fun b haligned hport hinput => ?_, fun haligned hport hend => ?_, fun hunaligned => ?_,
    fun haligned hport hbound => ?_⟩
  · exact ⟨_, exec_lw_of_inBounds rt rfl haligned hport hbound, onlyReg_writeReg .., State.readReg_writeReg_same ..⟩
  · obtain ⟨hregs, hhilo, hpc, hmem, ⟨hpos, hout⟩, hengine, hcfg⟩ :=
      onlyReg_writeReg { s with inPos := s.inPos + 1 } rt (sext8 b)
    refine ⟨_, exec_lw_of_input rt haligned hport hinput, hregs, hhilo, hpc, hmem, hpos, hout, hengine, hcfg, ?_⟩
    rw [State.readReg_writeReg_same_toNat, sext8_toNat]
  · exact ⟨_, exec_lw_of_end rt haligned hport hend, onlyReg_writeReg .., State.readReg_writeReg_same ..⟩
  · exact exec_lw_halts_of_memRead_error rt (s.memRead_of_unaligned hunaligned)
  · exact exec_lw_halts_of_memRead_error rt (s.memRead_of_outOfBounds haligned hport hbound)

/-- Settles O29: the four answers of the data-side write. -/
theorem swStoresAWordOrOutputsAByteOrHalts : Obligations.SwStoresAWordOrOutputsAByteOrHalts := by
  refine ⟨fun w h => decode_of_match (m := .sw) h, ?_⟩
  rintro rt rs imm s _ rfl
  refine ⟨encode_eq_canonicalWord (.sw rt rs imm), effAddr_toNat .., fun haligned hport hbound => ?_,
    fun haligned hport => ?_, fun hunaligned => ?_, fun haligned hport hbound => ?_⟩
  · exact ⟨_, exec_sw_of_inBounds rt rfl haligned hport hbound, State.wordAt_setWord_same ..,
      sameMemoryExceptWord_setWord s _ _, fun _ _ => rfl, ⟨rfl, rfl⟩, rfl, ⟨rfl, rfl⟩, ⟨rfl, rfl, rfl, rfl⟩, rfl⟩
  · refine ⟨_, exec_sw_of_memWrite_ok (s.memWrite_of_port _ haligned hport), ?_, fun _ => rfl, fun _ _ => rfl,
      ⟨rfl, rfl⟩, rfl, rfl, ⟨rfl, rfl, rfl, rfl⟩, rfl⟩
    rw [State.consoleOut_out, lowByte_eq]
  · exact exec_sw_halts_of_memWrite_error (s.memWrite_of_unaligned _ hunaligned)
  · exact exec_sw_halts_of_memWrite_error (s.memWrite_of_outOfBounds _ haligned hport hbound)

/-! ## After a store -/

/-- An instruction that is no store leaves every word as it was. -/
theorem exec_wordAt {i : Instr} {s t : State} (hi : i.mnemonic ≠ .sw) (h : exec i s = .next t) (a : Nat) :
    t.wordAt a = s.wordAt a := by
  obtain hsame | ⟨rt, rs, imm, rfl, -⟩ := exec_mem_cases h
  · exact State.wordAt_congr hsame (exec_cfg h) a
  · exact absurd rfl hi

/-- Settles O31: the store leaves its word at the address, the instruction between leaves it there, and the load, at the
same address under the same parameters, reads it. -/
theorem loadReturnsTheLatestStore : Obligations.LoadReturnsTheLatestStore := by
  intro rt rs rt' rs' imm imm' i s t u ea hea haligned hbound hin hout hi hstore hbetween hload
  obtain rfl := Host.Outcome.next.inj ((exec_sw_of_inBounds rt hea haligned hout hbound).symm.trans hstore)
  have hcfg : u.cfg = s.cfg := (exec_cfg hbetween).trans (State.setWord_cfg ..)
  refine ⟨_, exec_lw_of_inBounds rt' hload haligned (hcfg ▸ hin) (hcfg ▸ hbound), fun hrt => ?_⟩
  rw [State.readReg_writeReg_of_ne_zero _ _ hrt, exec_wordAt hi hbetween, State.wordAt_setWord_same]

/-- An instruction-side read looks at its word and at `MEM_BYTES` alone (20_memory.md R35). -/
theorem State.fetchWord_congr {s t : State} {a : Word} (hcfg : t.cfg = s.cfg)
    (hword : t.wordAt a.toNat = s.wordAt a.toNat) : t.fetchWord a = s.fetchWord a := by
  simp only [State.fetchWord, hcfg, hword]

/-- Settles O32: two aligned addresses are the same word or lie four bytes apart. -/
theorem storesAreSeenByTheNextFetch : Obligations.StoresAreSeenByTheNextFetch := by
  intro rt rs imm s t ea a hea haligned hbound hport hstore ha
  obtain rfl := Host.Outcome.next.inj ((exec_sw_of_inBounds rt hea haligned hport hbound).symm.trans hstore)
  split_ifs with hsame
  · subst hsame
    exact (State.fetchWord_ok_iff _ _ _).2 ⟨haligned, hbound, State.wordAt_setWord_same ..⟩
  · have hne : a.toNat ≠ ea.toNat := fun e => hsame (BitVec.eq_of_toNat_eq e)
    exact State.fetchWord_congr (State.setWord_cfg ..) (State.wordAt_setWord_ne s _ (by omega))

/-! ## The canonical form -/

theorem Memory.nodup_of_sorted {m : Memory} (h : m.Pairwise fun c d => c.1 < d.1) : m.Nodup :=
  h.imp fun hlt e => hlt.ne (congrArg Prod.fst e)

/-- Settles O36: a canonical memory lists exactly the addresses that read unlike the fill, in rising order, so what it
reads fixes it. -/
theorem memoriesThatReadTheSameAreEqual : Obligations.MemoriesThatReadTheSameAreEqual := by
  intro fill m m' hm hm' hread
  obtain ⟨hsorted, -⟩ := (Memory.wf_iff fill m).1 hm
  obtain ⟨hsorted', -⟩ := (Memory.wf_iff fill m').1 hm'
  have hmem : ∀ c : Host.Cell, c ∈ m ↔ c ∈ m' := by
    rintro ⟨a, b⟩
    rw [Memory.listed_iff hm, Memory.listed_iff hm', hread]
  have hperm : m.Perm m' :=
    (List.perm_ext_iff_of_nodup (Memory.nodup_of_sorted hsorted) (Memory.nodup_of_sorted hsorted')).2 hmem
  exact hperm.eq_of_pairwise (fun _ _ _ _ hlt hgt => absurd hgt hlt.asymm) hsorted hsorted'

end Sys2Proof.Machine

/-! SUPPORT. What a written line becomes (30_encoding.md R66 to R71): a line is a sequence of checks, so it has a word
exactly when each check accepts; the word is the canonical one, which the decoder takes back to the operands. -/

namespace Sys2Proof

/-! ## When a line has a word -/

/-- A check followed by others has a result exactly when the check accepts and the others have one. -/
theorem exists_bind_ok_iff {ε α β : Type} {x : Except ε α} {f : α → Except ε β} {p q : Prop}
    (hx : (∃ a, x = .ok a) ↔ p) (hf : ∀ a, (∃ w, f a = .ok w) ↔ q) : (∃ w, (x >>= f) = .ok w) ↔ p ∧ q := by
  simp only [except_bind_ok]
  constructor
  · rintro ⟨w, a, ha, hw⟩
    exact ⟨hx.1 ⟨a, ha⟩, (hf a).1 ⟨w, hw⟩⟩
  · rintro ⟨hp, hq⟩
    obtain ⟨a, ha⟩ := hx.2 hp
    obtain ⟨w, hw⟩ := (hf a).2 hq
    exact ⟨w, a, ha, hw⟩

theorem exists_asmReg_iff (n : Nat) : (∃ r, asmReg n = .ok r) ↔ n ≤ 31 := by
  simp [asmReg_ok_iff]

theorem exists_asmImm_iff (l : Literal) : (∃ i, asmImm l = .ok i) ↔ Machine.Literal.InRange l := by
  simp [asmImm_ok_iff, l.fitsImm_iff]

theorem exists_asmBranch_iff (pc : Nat) (i : BranchOperand) :
    (∃ h, asmBranch pc i = .ok h) ↔ Machine.BranchOperand.InRange pc i := by
  cases i with
  | lit l => exact exists_asmImm_iff l
  | label addr => simp [asmBranch_label_ok_iff, (BranchOperand.label addr).fits_iff]

theorem exists_asmWordOperand_iff (w : WordOperand) :
    (∃ v, asmWordOperand w = .ok v) ↔ Machine.WordOperand.InRange w := by
  rw [← w.fits_iff]
  by_cases hfits : w.fits = true
  · rcases w with (n | n) | n <;> simp [asmWordOperand, hfits]
  · simp [asmWordOperand, hfits]

/-- After the last check the word is written without another (R57). -/
theorem exists_bind_pure_iff {ε α β : Type} {x : Except ε α} {f : α → β} {p : Prop} (hx : (∃ a, x = .ok a) ↔ p) :
    (∃ w, (x >>= fun a => pure (f a)) = .ok w) ↔ p :=
  (exists_bind_ok_iff hx fun a => iff_true_intro ⟨f a, rfl⟩).trans (and_iff_left trivial)

theorem assemble_ok_iff_inRange (pc : Nat) : ∀ l : AsmLine,
    (∃ w, assemble pc l = .ok w) ↔ Machine.AsmLine.InRange pc l
  | .reg3 _ d s t => exists_bind_ok_iff (exists_asmReg_iff d) fun _ => exists_bind_ok_iff (exists_asmReg_iff s) fun _ =>
    exists_bind_pure_iff (exists_asmReg_iff t)
  | .reg2 _ s t => exists_bind_ok_iff (exists_asmReg_iff s) fun _ => exists_bind_pure_iff (exists_asmReg_iff t)
  | .dest _ d => exists_bind_pure_iff (exists_asmReg_iff d)
  | .src _ s => exists_bind_pure_iff (exists_asmReg_iff s)
  | .addi t s i => exists_bind_ok_iff (exists_asmReg_iff t) fun _ => exists_bind_ok_iff (exists_asmReg_iff s) fun _ =>
    exists_bind_pure_iff (exists_asmImm_iff i)
  | .branch _ s t i =>
    exists_bind_ok_iff (exists_asmReg_iff s) fun _ => exists_bind_ok_iff (exists_asmReg_iff t) fun _ =>
    exists_bind_pure_iff (exists_asmBranch_iff pc i)
  | .mem _ t i s => (exists_bind_ok_iff (exists_asmReg_iff t) fun _ => exists_bind_ok_iff (exists_asmImm_iff i) fun _ =>
    exists_bind_pure_iff (exists_asmReg_iff s)).trans (and_congr_right fun _ => and_comm)
  | .word w => exists_asmWordOperand_iff w

theorem regNumberOk_iff (n : Nat) : regNumberOk n = true ↔ n ≤ 31 := decide_eq_true_iff

/-- The check of a line accepts exactly the ranges the rules write. -/
theorem AsmLine.wellFormed_iff_inRange (pc : Nat) (l : AsmLine) :
    l.wellFormed pc = true ↔ Machine.AsmLine.InRange pc l := by
  cases l <;> simp only [AsmLine.wellFormed, Machine.AsmLine.InRange, Bool.and_eq_true, regNumberOk_iff, and_assoc,
    Literal.fitsImm_iff, BranchOperand.fits_iff, WordOperand.fits_iff]

/-- Settles O53: both the assembler and the check accept exactly the ranges of the rules. -/
theorem linesAssembleExactlyWhenInRange : Obligations.LinesAssembleExactlyWhenInRange := fun pc l =>
  ⟨(assemble_ok_iff_inRange pc l).trans (l.wellFormed_iff_inRange pc).symm, assemble_ok_iff_inRange pc l⟩

/-! ## What the word says -/

/-- A number that 16 bits hold as signed is what they read as. -/
theorem half_ofInt_toInt {n : Int} (hge : -32768 ≤ n) (hle : n ≤ 32767) : (BitVec.ofInt 16 n).toInt = n :=
  BitVec.toInt_ofInt_eq_self (by omega) (by omega) (by omega)

theorem half_ofNat_toNat {n : Nat} (h : n ≤ 0xFFFF) : (BitVec.ofNat 16 n).toNat = n := by
  rw [BitVec.toNat_ofNat]
  omega

/-- A half from 0x8000 up reads as a negative number (R58). -/
theorem half_toInt_of_high {i : Half} (h : 0x8000 ≤ i.toNat) : i.toInt = (i.toNat : Int) - 0x10000 := by
  rw [BitVec.toInt_eq_toNat_cond, if_neg (by omega)]
  norm_num

theorem assemble_addi_ok {pc t s : Nat} {i : Literal} {w : Word} (h : assemble pc (.addi t s i) = .ok w) :
    t ≤ 31 ∧ s ≤ 31 ∧ Machine.Literal.InRange i ∧
      w = encode (.addi (BitVec.ofNat 5 t) (BitVec.ofNat 5 s) i.immBits) := by
  simp only [assemble, except_bind_ok, except_pure_ok, asmReg_ok_iff, asmImm_ok_iff, i.fitsImm_iff] at h
  obtain ⟨_, ⟨ht, rfl⟩, _, ⟨hs, rfl⟩, _, ⟨hi, rfl⟩, rfl⟩ := h
  exact ⟨ht, hs, hi, rfl⟩

/-- Settles O54: the word is canonical, so it decodes to its operands, and an immediate in range is what its 16 bits
read as. -/
theorem writtenImmediatesReachTheirInstruction : Obligations.WrittenImmediatesReachTheirInstruction := by
  intro pc t s i w h
  obtain ⟨ht, hs, hi, rfl⟩ := assemble_addi_ok h
  refine ⟨i.immBits, decode_encode _, ht, hs, ?_, ?_⟩
  · rintro n rfl
    exact half_ofInt_toInt hi.1 hi.2
  · rintro n rfl
    have hn : (Literal.hex n).immBits.toNat = n := half_ofNat_toNat hi
    exact ⟨hn, fun hhigh => by rw [half_toInt_of_high (hn.symm ▸ hhigh), hn]⟩

theorem assemble_branch_label_ok {pc s t addr : Nat} {op : BranchOp} {w : Word}
    (h : assemble pc (.branch op s t (.label addr)) = .ok w) :
    (BranchOperand.label addr).fits pc = true ∧
      w = encode (op.instr (BitVec.ofNat 5 s) (BitVec.ofNat 5 t) (BitVec.ofInt 16 (labelOffset pc addr))) := by
  simp only [assemble, except_bind_ok, except_pure_ok, asmReg_ok_iff, asmBranch_label_ok_iff] at h
  obtain ⟨_, ⟨-, rfl⟩, _, ⟨-, rfl⟩, _, ⟨hfits, rfl⟩, rfl⟩ := h
  exact ⟨hfits, rfl⟩

/-- An accepted label's offset fits the field, and its fourfold is the distance (R70). -/
theorem labelOffset_of_fits {pc addr : Nat} (h : (BranchOperand.label addr).fits pc = true) :
    (BitVec.ofInt 16 (labelOffset pc addr)).toInt * 4 = (addr : Int) - ((pc : Int) + 4) := by
  simp only [BranchOperand.fits, Bool.and_eq_true, decide_eq_true_eq] at h
  obtain ⟨⟨hwhole, hge⟩, hle⟩ := h
  rw [half_ofInt_toInt hge hle, labelOffset]
  omega

/-- A branch whose offset's fourfold is the distance from the next instruction goes to the address (44_control.md
R115). -/
theorem branchTarget_eq_of_distance {pc addr : Nat} {imm : Half}
    (h : imm.toInt * 4 = (addr : Int) - ((pc : Int) + 4)) :
    Machine.branchTarget (BitVec.ofNat 32 pc + 4#32) imm = BitVec.ofNat 32 addr := by
  have htarget := Machine.branchTarget_toNat (BitVec.ofNat 32 pc + 4#32) imm
  rw [BitVec.toNat_add, BitVec.toNat_ofNat, BitVec.toNat_ofNat] at htarget
  apply BitVec.eq_of_toNat_eq
  rw [BitVec.toNat_ofNat]
  omega

/-- Settles O55: the field holds the label's offset, whose fourfold the branch adds to the address after it. -/
theorem branchesToLabelsReachThem : Obligations.BranchesToLabelsReachThem := by
  intro pc s t addr op w _ _ h
  obtain ⟨hfits, rfl⟩ := assemble_branch_label_ok h
  have hdistance := labelOffset_of_fits hfits
  exact ⟨_, decode_encode _, hdistance, branchTarget_eq_of_distance hdistance⟩

end Sys2Proof

/-! SUPPORT. An image held as bytes (70_reset_and_hazards.md R161), read in groups of four. -/

namespace Sys2Proof.Machine

theorem imageOfBytes_cons {b0 b1 b2 b3 : Byte} {rest : List Byte} {ws : List Word} (h : imageOfBytes rest = .ok ws) :
    imageOfBytes (b0 :: b1 :: b2 :: b3 :: rest) = .ok (wordOfBytes b0 b1 b2 b3 :: ws) := by
  rw [imageOfBytes, h]

theorem imageOfBytes_of_not_words : ∀ bytes : List Byte, bytes.length % 4 ≠ 0 →
    imageOfBytes bytes = .error .imageNotWords
  | [], h => absurd rfl h
  | [_], _ | [_, _], _ | [_, _, _], _ => rfl
  | b0 :: b1 :: b2 :: b3 :: rest, h => by
    rw [imageOfBytes, imageOfBytes_of_not_words rest (by simp only [List.length_cons] at h; omega)]

theorem imageOfBytes_of_words : ∀ bytes : List Byte, bytes.length % 4 = 0 →
    ∃ ws, imageOfBytes bytes = .ok ws ∧ 4 * ws.length = bytes.length ∧
      ∀ (k : Nat) (b0 b1 b2 b3 : Byte), bytes[4 * k]? = some b0 → bytes[4 * k + 1]? = some b1 →
        bytes[4 * k + 2]? = some b2 → bytes[4 * k + 3]? = some b3 → ws[k]? = some (b0 ++ b1 ++ b2 ++ b3)
  | [], _ => ⟨[], rfl, rfl, by simp⟩
  | [_], h | [_, _], h | [_, _, _], h => by simp at h
  | b0 :: b1 :: b2 :: b3 :: rest, h => by
    obtain ⟨ws, hws, hlength, hwords⟩ := imageOfBytes_of_words rest (by simp only [List.length_cons] at h; omega)
    refine ⟨_, imageOfBytes_cons hws, by simp only [List.length_cons]; omega, fun k c0 c1 c2 c3 h0 h1 h2 h3 => ?_⟩
    cases k with
    | zero =>
      cases h0
      cases h1
      cases h2
      cases h3
      rfl
    | succ k => exact hwords k c0 c1 c2 c3 h0 h1 h2 h3

/-- Settles O50: by recursion on the groups of four bytes; the length modulo 4 is that of what is left at the end. -/
theorem imageBytesAreBigEndianWords : Obligations.ImageBytesAreBigEndianWords := fun bytes =>
  ⟨imageOfBytes_of_not_words bytes, imageOfBytes_of_words bytes⟩

end Sys2Proof.Machine
